-- ==== Sys2Proof/Word.lean ====
section
/-! DEFINITION. The word types of CORE: XLEN = 64, WLEN = 32, BYTE = 8 (00_scope.md R7). Arithmetic on them is `BitVec`'s, which is
unsigned and wraps modulo 2^width, with no overflow check and no saturation (R10). -/

namespace Sys2Proof

/-- XLEN: an operand register, an address of the memory port, a 64-bit quantity (R7, R21, R35). -/
abbrev Word := BitVec 64

/-- WLEN: a hash32 quantity, a 32-bit fetched word; CLEN: a command word (R7, R80). -/
abbrev Half := BitVec 32

/-- BYTE: one addressable unit of memory (R7, R35). -/
abbrev Byte := BitVec 8

/-- The name of an operand register `x0` .. `x15`: NREG = 16 (R7, R21). Its arithmetic is modulo 16, which is the wrap of pairs and
quads (R24). -/
abbrev Reg := Fin 16

/-- A register number of the host port: 32 of them (R60). -/
abbrev PortNum := Fin 32

end Sys2Proof
end

