-- ==== Sys2Proof/Syntax.lean ====
section
/-! DEFINITION. The sixteen commands of CORE, one constructor per row of spec/opcode_table.json (30_encoding.md R83), with the operand fields
of each row's format (R82). `rd`, `ra`, `rb`, `rc` name registers; every one of the sixteen values is legal wherever a field is used
(R81), so they carry no check. `imm6` is written as a number and checked by `Instr.WellFormed` (R87, R90: `0 <= s <= 63`). -/

namespace Sys2Proof

inductive Instr where
  /-- `fetch32 rd, [ra]` (R112) -/
  | fetch32 (rd ra : Reg)
  /-- `fetch64 rd, [ra]` (R113) -/
  | fetch64 (rd ra : Reg)
  /-- `rotr64 rd, ra, rb` (R125) -/
  | rotr64 (rd ra rb : Reg)
  /-- `rotr64i rd, ra, imm6` (R126) -/
  | rotr64i (rd ra : Reg) (imm6 : Nat)
  /-- `rotr32 rd, ra, rb` (R127) -/
  | rotr32 (rd ra rb : Reg)
  /-- `rotr32i rd, ra, imm6` (R128) -/
  | rotr32i (rd ra : Reg) (imm6 : Nat)
  /-- `shmix rd, ra` (R129) -/
  | shmix (rd ra : Reg)
  /-- `comb16 rd, ra, rb` (R130) -/
  | comb16 (rd ra rb : Reg)
  /-- `comb16m rd, ra, rb, rc` (R131) -/
  | comb16m (rd ra rb rc : Reg)
  /-- `wpair32 rd, ra, rb, rc` (R132): `rd` a pair, `ra` a quad -/
  | wpair32 (rd ra rb rc : Reg)
  /-- `hash32 rd` (R140) -/
  | hash32 (rd : Reg)
  /-- `hash64 rd` (R160) -/
  | hash64 (rd : Reg)
  /-- `hash64s rd, ra` (R161) -/
  | hash64s (rd ra : Reg)
  /-- `hash64s2 rd, ra, rb` (R162) -/
  | hash64s2 (rd ra rb : Reg)
  /-- `hash128 rd` (R190): `rd` a pair -/
  | hash128 (rd : Reg)
  /-- `hash128s rd, ra, rb` (R191): `rd` a pair -/
  | hash128s (rd ra rb : Reg)
  deriving DecidableEq, Repr

end Sys2Proof
end

