-- ==== Sys2Proof/WellFormed.lean ====
section
/-! DEFINITION. Which commands can be written as a command word: the immediate of `ROTR64I` and `ROTR32I` is an unsigned 6-bit number
(30_encoding.md R81, R87, R90). Nothing else can be out of range (R81: all sixteen register numbers are legal). -/

namespace Sys2Proof

/-- The immediate field holds 6 bits: `0 <= imm6 <= 63` (R87). -/
def imm6Fits (imm6 : Nat) : Bool := imm6 < 64

/-- The check: every field of the command fits its place in the word. -/
def Instr.wellFormed (i : Instr) : Bool :=
  match i with
  | .fetch32 _ _ => true
  | .fetch64 _ _ => true
  | .rotr64 _ _ _ => true
  | .rotr64i _ _ imm6 => imm6Fits imm6
  | .rotr32 _ _ _ => true
  | .rotr32i _ _ imm6 => imm6Fits imm6
  | .shmix _ _ => true
  | .comb16 _ _ _ => true
  | .comb16m _ _ _ _ => true
  | .wpair32 _ _ _ _ => true
  | .hash32 _ => true
  | .hash64 _ => true
  | .hash64s _ _ => true
  | .hash64s2 _ _ _ => true
  | .hash128 _ => true
  | .hash128s _ _ _ => true

/-- A command whose fields all fit their places in the word. -/
abbrev Instr.WellFormed (i : Instr) : Prop := i.wellFormed = true

end Sys2Proof
end

