-- ==== Sys2Proof/Decode.lean ====
section
/-! DEFINITION. Decoding of a value written to `CMD` (30_encoding.md R93), total and rejecting by name, and the encoder (R81, R83, R90), both
from the tables of 30_encoding.md: the formats' masks (R82) and the opcode map (R83). -/

namespace Sys2Proof

/-- Why a value written to `CMD` is no command, in the order of the checks (R225): all three raise ILLEGAL_CMD (R222). -/
inductive Illegal where
  /-- bits 63:32 of the written value are not 0 (R94) -/
  | upperBits
  /-- the opcode is none of the sixteen (R85) -/
  | reservedOpcode
  /-- a must-be-zero bit of the command's format is 1 (R84) -/
  | mustBeZero
  deriving DecidableEq, Repr

/-- The operand fields of a command word (R81). -/
structure Fields where
  rd : Reg
  ra : Reg
  rb : Reg
  rc : Reg
  imm6 : Nat
  deriving DecidableEq, Repr

/-- The register number in the four bits of `c` from bit `lo` up (R81). -/
def regAt (c : Half) (lo : Nat) : Reg := (c.extractLsb' lo 4).toFin

/-- The opcode, bits 31:24 (R81). -/
def opcodeOf (c : Half) : BitVec 8 := c.extractLsb' 24 8

/-- The operand fields of the command word `c` (R81). -/
def fieldsOf (c : Half) : Fields :=
  { rd := regAt c 20, ra := regAt c 16, rb := regAt c 12, rc := regAt c 8, imm6 := (c.extractLsb' 0 6).toNat }

/-- The masks of the five formats (R82): a 1 at every bit that is fixed for the command. -/
def maskR1 : Half := 0xFF0FFFFF
def maskR2 : Half := 0xFF00FFFF
def maskR3 : Half := 0xFF000FFF
def maskR4 : Half := 0xFF0000FF
def maskI : Half := 0xFF00FFC0

/-- One row of the opcode map (R83): the opcode, the mask of its format, and the command it makes of the fields. -/
structure Row where
  op : BitVec 8
  mask : Half
  build : Fields → Instr

/-- The match value of a row is `op << 24` (R82). -/
def Row.value (r : Row) : Half := r.op.setWidth 32 <<< 24

/-- Unit groups 0x0 and 0x1: word fetch and the mixing primitives (R83). -/
def rowsPrimitive : List Row := [
  ⟨0x01, maskR2, fun f => .fetch32 f.rd f.ra⟩,
  ⟨0x02, maskR2, fun f => .fetch64 f.rd f.ra⟩,
  ⟨0x10, maskR3, fun f => .rotr64 f.rd f.ra f.rb⟩,
  ⟨0x11, maskI, fun f => .rotr64i f.rd f.ra f.imm6⟩,
  ⟨0x12, maskR3, fun f => .rotr32 f.rd f.ra f.rb⟩,
  ⟨0x13, maskI, fun f => .rotr32i f.rd f.ra f.imm6⟩,
  ⟨0x14, maskR2, fun f => .shmix f.rd f.ra⟩,
  ⟨0x15, maskR3, fun f => .comb16 f.rd f.ra f.rb⟩,
  ⟨0x16, maskR4, fun f => .comb16m f.rd f.ra f.rb f.rc⟩,
  ⟨0x17, maskR4, fun f => .wpair32 f.rd f.ra f.rb f.rc⟩]

/-- Unit groups 0x2, 0x3 and 0x4: hash32, hash64, hash128 (R83). -/
def rowsHash : List Row := [
  ⟨0x20, maskR1, fun f => .hash32 f.rd⟩,
  ⟨0x30, maskR1, fun f => .hash64 f.rd⟩,
  ⟨0x31, maskR2, fun f => .hash64s f.rd f.ra⟩,
  ⟨0x32, maskR3, fun f => .hash64s2 f.rd f.ra f.rb⟩,
  ⟨0x40, maskR1, fun f => .hash128 f.rd⟩,
  ⟨0x41, maskR3, fun f => .hash128s f.rd f.ra f.rb⟩]

/-- The opcode map, sixteen rows (R83). -/
def opcodeMap : List Row := rowsPrimitive ++ rowsHash

/-- The row whose opcode is `op`, if there is one. -/
def rowOf (op : BitVec 8) : Option Row := opcodeMap.find? (fun r => r.op == op)

/-- A word is the command of a row exactly when `(c & mask) = match` (R82). -/
def Row.admits (r : Row) (c : Half) : Bool := c &&& r.mask == r.value

/-- Decoding of a 32-bit command word: the opcode's row, then the must-be-zero bits (R93). -/
def decodeWord (c : Half) : Except Illegal Instr :=
  match rowOf (opcodeOf c) with
  | none => .error .reservedOpcode
  | some r => if r.admits c then .ok (r.build (fieldsOf c)) else .error .mustBeZero

/-- Decoding of the 64-bit value `v` written to `CMD` (R93): bits 63:32 first (R94), then the command word in bits 31:0 (R80). -/
def decode (v : Word) : Except Illegal Instr :=
  if v.extractLsb' 32 32 ≠ 0 then .error .upperBits else decodeWord (v.setWidth 32)

/-- The opcode `op` in its place, bits 31:24 (R81). -/
def opBits (op : Nat) : Half := BitVec.ofNat 32 op <<< 24

/-- The register number `r` in the field whose lowest bit is `lo` (R81). -/
def regBits (r : Reg) (lo : Nat) : Half := BitVec.ofNat 32 r.val <<< lo

/-- The command word of a well-formed command (R90). -/
def encode (i : Instr) : Half :=
  match i with
  | .fetch32 rd ra => opBits 0x01 ||| regBits rd 20 ||| regBits ra 16
  | .fetch64 rd ra => opBits 0x02 ||| regBits rd 20 ||| regBits ra 16
  | .rotr64 rd ra rb => opBits 0x10 ||| regBits rd 20 ||| regBits ra 16 ||| regBits rb 12
  | .rotr64i rd ra imm6 => opBits 0x11 ||| regBits rd 20 ||| regBits ra 16 ||| BitVec.ofNat 32 imm6
  | .rotr32 rd ra rb => opBits 0x12 ||| regBits rd 20 ||| regBits ra 16 ||| regBits rb 12
  | .rotr32i rd ra imm6 => opBits 0x13 ||| regBits rd 20 ||| regBits ra 16 ||| BitVec.ofNat 32 imm6
  | .shmix rd ra => opBits 0x14 ||| regBits rd 20 ||| regBits ra 16
  | .comb16 rd ra rb => opBits 0x15 ||| regBits rd 20 ||| regBits ra 16 ||| regBits rb 12
  | .comb16m rd ra rb rc => opBits 0x16 ||| regBits rd 20 ||| regBits ra 16 ||| regBits rb 12 ||| regBits rc 8
  | .wpair32 rd ra rb rc => opBits 0x17 ||| regBits rd 20 ||| regBits ra 16 ||| regBits rb 12 ||| regBits rc 8
  | .hash32 rd => opBits 0x20 ||| regBits rd 20
  | .hash64 rd => opBits 0x30 ||| regBits rd 20
  | .hash64s rd ra => opBits 0x31 ||| regBits rd 20 ||| regBits ra 16
  | .hash64s2 rd ra rb => opBits 0x32 ||| regBits rd 20 ||| regBits ra 16 ||| regBits rb 12
  | .hash128 rd => opBits 0x40 ||| regBits rd 20
  | .hash128s rd ra rb => opBits 0x41 ||| regBits rd 20 ||| regBits ra 16 ||| regBits rb 12

/-- The 64-bit value the host writes to `CMD` for a command: its word, zero-extended (R90). -/
def encodeValue (i : Instr) : Word := (encode i).setWidth 64

/-- The 64-bit value written to `CMD` for the `nbits` low bits of `w`, numbered as spec/opcode_table.json numbers them, every bit above
them 0. A command is one 32-bit value of the port, so no byte order arises (R53, R80). -/
def tableValue (nbits w : Nat) : Word := BitVec.ofNat 64 (w % 2 ^ nbits)

/-- The command the decoder reads from the `nbits` low bits of `w`. -/
def decodeTableWord (nbits w : Nat) : Option Instr :=
  match decode (tableValue nbits w) with
  | .ok i => some i
  | .error _ => none

end Sys2Proof
end

