-- ==== Sys2Proof/Config.lean ====
section
/-! DEFINITION. What an implementation fixes: the shape of the record of mixer constants (00_scope.md R8, R9). The engines take a `Consts`
as an argument; the value this hardware is built with is `Sys2Proof.Machine.consts` (Machine/Constants.lean). -/

namespace Sys2Proof

/-- The numeric constants of the mixers, "configuration, not semantics" (R8): eleven named fields with the widths of R9. -/
structure Consts where
  /-- hash64, hash128: default seed low, mixing -/
  K0 : Word
  /-- hash64, hash128: default seed high, mixing -/
  K1 : Word
  /-- hash64: value for the empty input, base of the length multiplier -/
  K2 : Word
  /-- combine-16 default multiplier, doc00's `fixed_prime` -/
  KMUL : Word
  /-- hash32, first prime -/
  C1 : Half
  /-- hash32, second prime -/
  C2 : Half
  /-- hash32, additive constant of the `mur` step -/
  C3 : Half
  /-- hash32 avalanche finalizer, first multiplier -/
  FM1 : Half
  /-- hash32 avalanche finalizer, second multiplier -/
  FM2 : Half
  /-- hash64 rolling loop, seed-like constant -/
  SEEDX : Word
  /-- hash64 rolling loop, seed-like constant -/
  SEEDY : Word
  deriving DecidableEq, Repr

end Sys2Proof
end

