-- ==== Sys2Proof/Machine/Constants.lean ====
section
/-! DEFINITION. The mixer constants this hardware is built with: the default value of each field of `Consts` (00_scope.md R9). They are fixed at
build time, not loaded (R252). PRESUMED: the spec marks every value `[from general knowledge, not in source]` (log 1, unsafe). -/

namespace Sys2Proof.Machine

/-- The default constants (R9). -/
def consts : Consts where
  K0 := 0xc3a5c85c97cb3127
  K1 := 0xb492b66fbe98f273
  K2 := 0x9ae16a3b2f90404f
  KMUL := 0x9ddfea08eb382d69
  C1 := 0xcc9e2d51
  C2 := 0x1b873593
  C3 := 0xe6546b64
  FM1 := 0x85ebca6b
  FM2 := 0xc2b2ae35
  SEEDX := 81
  SEEDY := 113

end Sys2Proof.Machine
end

