-- ==== Sys2Proof/Machine/State.lean ====
section
/-! DEFINITION. The state of CORE (10_state.md R20) as plain data, with the memory of the environment and the host's list of transactions
beside it, and the state after reset (R39). -/

namespace Sys2Proof.Machine

/-- The buffer space (R35): address and byte pairs, addresses strictly rising, no entry equal to what an unlisted address reads as.
`Memory.wf` (Machine/Ops.lean) says so. -/
abbrev Memory := List Host.Cell

/-- One transaction of a run (R254, R258; the directives of R92). A register number is 0 to 31 and an access is whole (R60, U3). -/
inductive Transaction where
  /-- assert reset (R250) -/
  | reset
  /-- the host reads register number `k` (R60) -/
  | read (k : PortNum)
  /-- the host writes `v` to register number `k`; `k = 0` presents a command (R29, R60) -/
  | write (k : PortNum) (v : Word)
  /-- environment action, no port transaction: memory holds `bytes` from `addr` upward before the next command (R92) -/
  | mem (addr : Word) (bytes : List Byte)
  deriving DecidableEq, Repr

/-- The state. `x` to `finfo` are CORE's (R20); `mem` is the environment's (R35); `pending` and `reads` are the model's own and stand for
the host (log 3). `CMD` holds nothing (R29), and the scratch registers of a command are no state (R37). -/
structure State where
  /-- operand registers `x[0]` to `x[15]` (R21) -/
  x : Vector Word 16
  /-- `STATUS`: FAULT in bit 0, CAUSE in bits 7:4, the rest reserved (R30) -/
  status : Word
  /-- `BUF_BASE` (R31) -/
  bufBase : Word
  /-- `BUF_LEN` (R32) -/
  bufLen : Word
  /-- `FINFO` (R33) -/
  finfo : Word
  /-- the buffer space behind the memory port (R35, R50) -/
  mem : Memory
  /-- the transactions the host has still to issue, the next one first (R258; log 3, DESIGN CHOICE) -/
  pending : List Transaction
  /-- the values the host's reads have returned, oldest first (R254; log 3, DESIGN CHOICE) -/
  reads : List Word
  deriving DecidableEq, Repr

/-- Why the machine stops. The two faults of CORE (R220) are NOT here: taking one is a next state (R226). -/
inductive Fault where
  /-- a fetch past the end of its byte run inside an engine, "fatal/unreachable (assertion)" (R115, U5); raised by the hash commands
  only; SAFE: the rules R152, R178 and R206 say that no state reaches it (log 6) -/
  | engineFetch
  deriving DecidableEq, Repr

/-- Why an instruction has no meaning. -/
inductive Refusal where
  /-- an arm of `exec` that has no meaning yet; raised by `exec` only; SAFE. No arm uses it -/
  | notModelled (mnemonic : String)
  deriving DecidableEq, Repr

/-- What a command or a transaction answers. -/
abbrev Result := Host.Outcome State Fault Refusal

/-- The state after reset (R39): every register 0, no fault, the empty window, nothing listed in memory (log 2), no transaction
pending and none read (log 3). -/
def State.reset : State where
  x := Vector.replicate 16 0
  status := 0
  bufBase := 0
  bufLen := 0
  finfo := 0
  mem := []
  pending := []
  reads := []

end Sys2Proof.Machine
end

