-- ==== Sys2Proof/Machine/Flags.lean ====
section
/-! DEFINITION. The fields of `STATUS` (10_state.md R30). `FAULT` is the one flag of CORE: no command computes a carry, overflow, zero or sign flag
(R27), so there is no other flag computation. -/

namespace Sys2Proof.Machine

/-- FAULT, bit 0 of a `STATUS` value (R30). -/
def faultOf (st : Word) : Bool := st.getLsbD 0

/-- CAUSE, bits 7:4 of a `STATUS` value (R30). -/
def causeOf (st : Word) : BitVec 4 := st.extractLsb' 4 4

/-- A `STATUS` value with FAULT set to 1 and the other bits kept (R226). -/
def withFault (st : Word) : Word := st ||| 1

/-- A `STATUS` value with CAUSE set to `c` and the other bits kept (R226). -/
def withCause (st : Word) (c : BitVec 4) : Word := (st &&& ~~~(0xF0 : Word)) ||| (c.setWidth 64 <<< 4)

/-- What a read of `STATUS` returns: the fields, with the reserved bits 3:1 and 63:8 read as 0 (R30, U4; log 11). -/
def readableStatus (st : Word) : Word := st &&& 0xF1

/-- `STATUS.FAULT` of a state (R27, R30). -/
def State.fault (s : State) : Bool := faultOf s.status

/-- `STATUS.CAUSE` of a state (R30). -/
def State.cause (s : State) : BitVec 4 := causeOf s.status

end Sys2Proof.Machine
end

