-- ==== Sys2Proof/Machine/Ops.lean ====
section
/-! DEFINITION. The named operations over memory and registers: memory reads and writes (20_memory.md R50, 30_encoding.md R92), the operand
registers (10_state.md R21, R22), taking a fault (60_exceptions.md R226) and the one return from it, reset (R228, R250). -/

namespace Sys2Proof.Machine

/-! ### Memory -/

/-- What an address that memory does not list reads as. DESIGN CHOICE 0 (log 2, unsafe): the spec leaves memory's contents to the
platform (R61). -/
def unlistedByte : Byte := 0

/-- The byte that a list of cells holds at an address. -/
def cellsRead : List Host.Cell → Nat → Byte
  | [], _ => unlistedByte
  | (k, c) :: rest, a => if k = a then c else cellsRead rest a

/-- The list of cells with the byte at an address replaced, kept in canonical form: an entry equal to `unlistedByte` is not listed. -/
def cellsWrite : List Host.Cell → Nat → Byte → List Host.Cell
  | [], a, b => if b = unlistedByte then [] else [(a, b)]
  | (k, c) :: rest, a, b =>
    if k = a then (if b = unlistedByte then rest else (a, b) :: rest)
    else if a < k then (if b = unlistedByte then (k, c) :: rest else (a, b) :: (k, c) :: rest)
    else (k, c) :: cellsWrite rest a b

/-- The canonical form from address `lo` up: addresses strictly rising, inside the 2^64 of the buffer space (R35), no entry equal to
`unlistedByte`. -/
def cellsWf : Nat → List Host.Cell → Bool
  | _, [] => true
  | lo, (k, c) :: rest => decide (lo ≤ k) && decide (k < 2 ^ 64) && c != unlistedByte && cellsWf (k + 1) rest

/-- The canonical form of memory. -/
def Memory.wf (m : Memory) : Bool := cellsWf 0 m

/-- One byte of the buffer space; every address answers (R50). -/
def Memory.read (m : Memory) (a : Word) : Byte := cellsRead m a.toNat

/-- One byte of the buffer space replaced, by the environment: CORE never writes memory (R59). -/
def Memory.write (m : Memory) (a : Word) (b : Byte) : Memory := cellsWrite m a.toNat b

/-- `MemRead(addr, k)`: the `k` bytes from `addr` up, addresses modulo 2^64, lowest index first (R50). -/
def memRead (m : Memory) (a : Word) : Nat → List Byte
  | 0 => []
  | k + 1 => m.read a :: memRead m (a + 1) k

/-- The environment places bytes from an address upward, addresses modulo 2^64 (R92; log 13). -/
def memPlace (m : Memory) (a : Word) : List Byte → Memory
  | [] => m
  | b :: rest => memPlace (m.write a b) (a + 1) rest

/-- The value of a run of bytes in little-endian order: the byte at the lowest offset is the least significant (R52). The byte order of
the machine is decided here and nowhere else. -/
def leValue : List Byte → Nat
  | [] => 0
  | b :: rest => b.toNat + 2 ^ 8 * leValue rest

/-! ### Operand registers -/

/-- Read of an operand register; no register is hardwired (R21). -/
def State.reg (s : State) (r : Reg) : Word := s.x.get r

/-- `x[r] <- v` (R22). -/
def State.setReg (s : State) (r : Reg) (v : Word) : State := { s with x := s.x.set r.val v r.isLt }

/-! ### Taking a fault, and the return from it -/

/-- The two faults of CORE (R220). -/
inductive Cause where
  /-- a fetch past the end of the window, raised by `FETCH32` and `FETCH64` (R221) -/
  | fetchBounds
  /-- a value written to `CMD` that is no command (R222) -/
  | illegalCmd
  deriving DecidableEq, Repr

/-- The CAUSE code of a fault (R220). -/
def causeCode (c : Cause) : BitVec 4 :=
  match c with
  | .fetchBounds => 1
  | .illegalCmd => 2

/-- `raise F(info)`: FAULT, CAUSE and FINFO are written, and nothing else (R226). -/
def raiseFault (c : Cause) (info : Word) (s : State) : State :=
  { s with status := withCause (withFault s.status) (causeCode c), finfo := info }

/-- Reset, the only exit from a fault (R228): every register of CORE at its reset value (R250, R39); memory is not CORE's and is not
changed, and what the host has still to do and has read is the host's (log 15). -/
def resetCore (s : State) : State :=
  { State.reset with mem := s.mem, pending := s.pending, reads := s.reads }

/-- How a command that computes in an engine ends: with its result written, or, on a fetch past the end inside the engine, in the
assertion of R115 (log 6). -/
def completeWith {α : Type} (result : Option α) (put : α → State) : Result :=
  match result with
  | some v => .next (put v)
  | none => .fault .engineFetch

end Sys2Proof.Machine
end

