-- ==== Sys2Proof/Machine/Operands.lean ====
section
/-! DEFINITION. Every operand form of the commands (30_encoding.md R87, R88; 10_state.md R23, R24): a 64-bit register, the low 32 bits of one,
a 32-bit result, a pair, a quad, a rotate amount, a window offset. -/

namespace Sys2Proof.Machine

/-- A 32-bit source: bits 31:0 of the register, bits 63:32 ignored (R23). -/
def State.low32 (s : State) (r : Reg) : Half := (s.reg r).setWidth 32

/-- A 32-bit result is written zero-extended, so bits 63:32 of the destination are 0 (R23). -/
def State.setReg32 (s : State) (r : Reg) (v : Half) : State := s.setReg r (v.setWidth 64)

/-- The second register of the pair named by `r`: `x[(r + 1) mod 16]` (R24). -/
def pairHigh (r : Reg) : Reg := r + 1

/-- A pair destination: the first (low) word to `x[r]`, the second (high) word to `x[(r + 1) mod 16]` (R24). -/
def State.setPair (s : State) (r : Reg) (v : Word × Word) : State := (s.setReg r v.1).setReg (pairHigh r) v.2

/-- The register at place `k` of the quad named by `r`: `x[(r + k) mod 16]` (R24). -/
def State.quad (s : State) (r : Reg) (k : Reg) : Word := s.reg (r + k)

/-- A rotate amount in a register: all 64 bits read, reduced modulo the width (R125, R127, R11). -/
def State.amount (s : State) (r : Reg) (width : Nat) : Nat := (s.reg r).toNat % width

/-- A window offset `[ra]`: the whole 64-bit register as a natural (R88, R112). -/
def State.offset (s : State) (r : Reg) : Nat := (s.reg r).toNat

end Sys2Proof.Machine
end

