-- ==== Sys2Proof/Machine/ByteRun.lean ====
section
/-! DEFINITION. Byte runs and the word-fetch unit's functions `f32` and `f64` (00_scope.md R13, 40_word_fetch.md R110, R111). A run is a window into
memory, so that a sub-run is a run (R116) and no run is copied; a fetch past its end has no value (R110, R115). -/

namespace Sys2Proof.Machine

/-- A finite byte run `B`: its bytes lie in `mem` from address `base` up, modulo 2^64; `len` is `|B|` (R13, R36). -/
structure ByteRun where
  mem : Memory
  base : Word
  len : Nat
  deriving DecidableEq, Repr

/-- The memory address of the byte at index `i` of a run: the one rule that turns an offset into an address (R51). -/
def ByteRun.addr (B : ByteRun) (i : Nat) : Word := B.base + BitVec.ofNat 64 i

/-- The `w` bytes of a run from index `i` up; none unless `i + w <= |B|`, a sum of naturals (R56). -/
def ByteRun.bytes (B : ByteRun) (i w : Nat) : Option (List Byte) :=
  if i + w ≤ B.len then some (memRead B.mem (B.addr i) w) else none

/-- `B[i]`, for `0 <= i < |B|` (R13). -/
def ByteRun.byte (B : ByteRun) (i : Nat) : Option Byte :=
  if i < B.len then some (B.mem.read (B.addr i)) else none

/-- `f32(B, i)`: 32-bit little-endian fetch, without a value when `i + 4 > |B|` (R110). -/
def ByteRun.f32 (B : ByteRun) (i : Nat) : Option Half := (B.bytes i 4).map (fun bs => BitVec.ofNat 32 (leValue bs))

/-- `f64(B, i)`: 64-bit little-endian fetch, without a value when `i + 8 > |B|` (R111). -/
def ByteRun.f64 (B : ByteRun) (i : Nat) : Option Word := (B.bytes i 8).map (fun bs => BitVec.ofNat 64 (leValue bs))

/-- `B[i:j]`: the sub-run of indices `i` to `j - 1` (R13). -/
def ByteRun.sub (B : ByteRun) (i j : Nat) : ByteRun := { mem := B.mem, base := B.addr i, len := j - i }

/-- The window `W`: the run of `BUF_LEN` bytes from `BUF_BASE` up, as memory holds them when the command executes (R36). -/
def State.window (s : State) : ByteRun := { mem := s.mem, base := s.bufBase, len := s.bufLen.toNat }

end Sys2Proof.Machine
end

