-- ==== Sys2Proof/Machine/Primitives.lean ====
section
/-! DEFINITION. The mixing primitives: pure functions of fixed-width words (41_mixing_primitives.md section 1). -/

namespace Sys2Proof.Machine

/-- `rotr64(v, s)`: right rotation by `s mod 64`, with rotation by 0 guarded (R120). -/
def rotr64 (v : Word) (s : Nat) : Word :=
  let t := s % 64
  if t = 0 then v else (v >>> t) ||| (v <<< (64 - t))

/-- `rotr32(v, s)`: the same primitive at width 32 (R121). -/
def rotr32 (v : Half) (s : Nat) : Half :=
  let t := s % 32
  if t = 0 then v else (v >>> t) ||| (v <<< (32 - t))

/-- `shift_mix(v) = v ^ (v >> 47)`, the shift logical (R122). -/
def shiftMix (v : Word) : Word := v ^^^ (v >>> 47)

/-- `combine16(u, v, mul)` (R123; the formula is the spec's decision D15, log 9). -/
def combine16 (u v mul : Word) : Word :=
  let a := shiftMix ((u ^^^ v) * mul)
  let b := shiftMix ((v ^^^ a) * mul)
  b * mul

/-- `weak_pair32(w, x, y, z, a, b)` (R124; the formula is the spec's decision D16, log 9). -/
def weakPair32 (w x y z a b : Word) : Word × Word :=
  let a := a + w
  let b := rotr64 (b + a + z) 21
  let c := a
  let a := a + x
  let a := a + y
  let b := b + rotr64 a 44
  (a + z, b + c)

end Sys2Proof.Machine
end

