-- ==== Sys2Proof/Machine/Hash64.lean ====
section
/-! DEFINITION. The hash64 length-bucketed mixer, its seeded forms and their commands (43_hash64.md). All arithmetic is on 64-bit words, modulo 2^64.
The formulas are the spec's decisions D19 to D22 (log 9). A `none` is a fetch past the end of the run (R115), which R178 says does
not happen. -/

namespace Sys2Proof.Machine

/-- Bucket `1 <= n <= 3` (R165): the packing is done at 32 bits and zero-extended. -/
def h64Len1to3 (K : Consts) (B : ByteRun) : Option Word := do
  let n := B.len
  let a ← B.byte 0
  let b ← B.byte (n >>> 1)
  let c ← B.byte (n - 1)
  let y : Half := a.setWidth 32 + (b.setWidth 32 <<< 8)
  let z : Half := BitVec.ofNat 32 n + (c.setWidth 32 <<< 2)
  return shiftMix ((y.setWidth 64 * K.K2) ^^^ (z.setWidth 64 * K.K0)) * K.K2

/-- The length multiplier `K2 + 2 * n` (R166, R168, R169), `n` reduced modulo 2^64 (R12). -/
def lengthMul (K : Consts) (n : Nat) : Word := K.K2 + 2 * BitVec.ofNat 64 n

/-- Bucket `4 <= n <= 8` (R166). -/
def h64Len4to8 (K : Consts) (B : ByteRun) : Option Word := do
  let n := B.len
  let a ← B.f32 0
  let e ← B.f32 (n - 4)
  return combine16 (BitVec.ofNat 64 n + (a.setWidth 64 <<< 3)) (e.setWidth 64) (lengthMul K n)

/-- Bucket `9 <= n <= 16` (R167): the multiplier depends on `n - 8`. -/
def h64Len9to16 (K : Consts) (B : ByteRun) : Option Word := do
  let n := B.len
  let mul := lengthMul K (n - 8)
  let a := (← B.f64 0) + K.K2
  let b ← B.f64 (n - 8)
  let c := rotr64 b 37 * mul + a
  let d := (rotr64 a 25 + b) * mul
  return combine16 c d mul

/-- Bucket `17 <= n <= 32` (R168). -/
def h64Len17to32 (K : Consts) (B : ByteRun) : Option Word := do
  let n := B.len
  let mul := lengthMul K n
  let a := (← B.f64 0) * K.K1
  let b ← B.f64 8
  let c := (← B.f64 (n - 8)) * mul
  let d := (← B.f64 (n - 16)) * K.K2
  return combine16 (rotr64 (a + b) 43 + rotr64 c 30 + d) (a + rotr64 (b + K.K2) 18 + c) mul

/-- Bucket `33 <= n <= 64` (R169): eight reads. -/
def h64Len33to64 (K : Consts) (B : ByteRun) : Option Word := do
  let n := B.len
  let mul := lengthMul K n
  let a := (← B.f64 0) * K.K2
  let b ← B.f64 8
  let c := (← B.f64 (n - 8)) * mul
  let d := (← B.f64 (n - 16)) * K.K2
  let y := rotr64 (a + b) 43 + rotr64 c 30 + d
  let z := combine16 y (a + rotr64 (b + K.K2) 18 + c) mul
  let e := (← B.f64 16) * mul
  let f ← B.f64 24
  let g := (y + (← B.f64 (n - 32))) * mul
  let h := (z + (← B.f64 (n - 24))) * mul
  return combine16 (rotr64 (e + f) 43 + rotr64 g 30 + h) (e + rotr64 (f + a) 18 + g) mul

/-- The eight registers of the rolling state, local to one call (R170, R37). -/
structure H64Regs where
  sx : Word
  sy : Word
  sz : Word
  vfirst : Word
  vsecond : Word
  wfirst : Word
  wsecond : Word
  mul : Word
  deriving DecidableEq, Repr

/-- Bucket `n > 64`, initialization (R170). -/
def h64Start (K : Consts) (B : ByteRun) : Option H64Regs := do
  let sx := K.SEEDX
  let sy := K.SEEDX * K.K1 + K.SEEDY
  let sz := shiftMix (sy * K.K2 + K.SEEDY) * K.K2
  let sx := sx * K.K2 + (← B.f64 0)
  return { sx := sx, sy := sy, sz := sz, vfirst := 0, vsecond := 0, wfirst := 0, wsecond := 0, mul := K.K1 }

/-- The chunk step `RND(p, m9)` over the 64 bytes from index `p` up (R171). The statements are executed in order; `sx` and `sz` are
exchanged at the end. -/
def h64Rnd (B : ByteRun) (p : Nat) (m9 : Word) (r : H64Regs) : Option H64Regs := do
  let w0 ← B.f64 p
  let w1 ← B.f64 (p + 8)
  let w2 ← B.f64 (p + 16)
  let w3 ← B.f64 (p + 24)
  let w4 ← B.f64 (p + 32)
  let w5 ← B.f64 (p + 40)
  let w6 ← B.f64 (p + 48)
  let w7 ← B.f64 (p + 56)
  let mul := r.mul
  let sx := rotr64 (r.sx + r.sy + r.vfirst + w1) 37 * mul
  let sy := rotr64 (r.sy + r.vsecond + w6) 42 * mul
  let sx := sx ^^^ (r.wsecond * m9)
  let sy := sy + r.vfirst * m9 + w5
  let sz := rotr64 (r.sz + r.wfirst) 33 * mul
  let v := weakPair32 w0 w1 w2 w3 (r.vsecond * mul) (sx + r.wfirst)
  let w := weakPair32 w4 w5 w6 w7 (sz + r.wsecond) (sy + w2)
  return { sx := sz, sy := sy, sz := sx, vfirst := v.1, vsecond := v.2, wfirst := w.1, wsecond := w.2, mul := mul }

/-- The loop: `left` chunks still to come, the next one from index `p` up (R172). -/
def h64Loop (B : ByteRun) : (left p : Nat) → H64Regs → Option H64Regs
  | 0, _, r => some r
  | left + 1, p, r => do
    let r ← h64Rnd B p 1 r
    h64Loop B left (p + 64) r

/-- Before the tail step: the new multiplier and the fold of the length (R173). -/
def h64Fold (K : Consts) (n : Nat) (r : H64Regs) : H64Regs :=
  let wfirst := r.wfirst + BitVec.ofNat 64 ((n - 1) % 64)
  let vfirst := r.vfirst + wfirst
  let wfirst := wfirst + vfirst
  { r with mul := K.K1 + ((r.sz &&& 0xff) <<< 1), vfirst := vfirst, wfirst := wfirst }

/-- The final fold of all registers (R173). -/
def h64End (K : Consts) (r : H64Regs) : Word :=
  combine16 (combine16 r.vfirst r.wfirst r.mul + shiftMix r.sy * K.K0 + r.sz)
    (combine16 r.vsecond r.wsecond r.mul + r.sx) r.mul

/-- Bucket `n > 64` (R170 to R173): `(n - 1) div 64` chunks, then the last 64 bytes with multiplier 9. -/
def h64Over64 (K : Consts) (B : ByteRun) : Option Word := do
  let n := B.len
  let r ← h64Start K B
  let r ← h64Loop B ((n - 1) / 64) 0 r
  let r ← h64Rnd B (n - 64) 9 (h64Fold K n r)
  return h64End K r

/-- `H64(B)`: dispatch strictly by byte length (R163); the empty run gives `K2` (R164). -/
def h64 (K : Consts) (B : ByteRun) : Option Word :=
  if B.len = 0 then some K.K2
  else if B.len ≤ 3 then h64Len1to3 K B
  else if B.len ≤ 8 then h64Len4to8 K B
  else if B.len ≤ 16 then h64Len9to16 K B
  else if B.len ≤ 32 then h64Len17to32 K B
  else if B.len ≤ 64 then h64Len33to64 K B
  else h64Over64 K B

/-- `H64S2(B, seed0, seed1) = combine16(H64(B) - seed0, seed1)` with the default multiplier (R174). -/
def h64s2 (K : Consts) (B : ByteRun) (seed0 seed1 : Word) : Option Word := do
  let h ← h64 K B
  return combine16 (h - seed0) seed1 K.KMUL

/-- `H64S(B, seed) = combine16(H64(B) - seed, KMUL)` with the default multiplier (R175). -/
def h64s (K : Consts) (B : ByteRun) (seed : Word) : Option Word := do
  let h ← h64 K B
  return combine16 (h - seed) K.KMUL K.KMUL

/-- `HASH64 rd` (R160). -/
def execHash64 (rd : Reg) (s : State) : Result :=
  completeWith (h64 consts s.window) (fun v => s.setReg rd v)

/-- `HASH64S rd, ra` (R161). -/
def execHash64s (rd ra : Reg) (s : State) : Result :=
  completeWith (h64s consts s.window (s.reg ra)) (fun v => s.setReg rd v)

/-- `HASH64S2 rd, ra, rb` (R162). -/
def execHash64s2 (rd ra rb : Reg) (s : State) : Result :=
  completeWith (h64s2 consts s.window (s.reg ra) (s.reg rb)) (fun v => s.setReg rd v)

end Sys2Proof.Machine
end

