-- ==== Sys2Proof/Machine/Hash128.lean ====
section
/-! DEFINITION. The hash128 dual-regime engine and its commands (44_hash128.md). All arithmetic is on 64-bit words, modulo 2^64. The formulas are the
spec's decisions D23 to D26 (log 9). A `none` is a fetch past the end of the run (R115), which R206 says does not happen. A 128-bit
value is the pair (low, high) (R192). -/

namespace Sys2Proof.Machine

/-- The four registers of the CityMurmur procedure, local to one call (R195, R37). -/
structure CMRegs where
  a : Word
  b : Word
  c : Word
  d : Word
  deriving DecidableEq, Repr

/-- Part 2a, `n <= 16`: the whole run is the tail and is folded in through `H64` (R195, R196). -/
def cmShortRun (K : Consts) (B : ByteRun) (s0 s1 : Word) : Option CMRegs := do
  let a := shiftMix (s0 * K.K1) * K.K1
  let c := s1 * K.K1 + (← h64 K B)
  let e ← if 8 ≤ B.len then B.f64 0 else some c
  return { a := a, b := s1, c := c, d := shiftMix (a + e) }

/-- Part 2b, `n > 16`, start: the last 16 bytes and the length (R195, R197). -/
def cmStart (K : Consts) (B : ByteRun) (s0 s1 : Word) : Option CMRegs := do
  let n := B.len
  let c := combine16 ((← B.f64 (n - 8)) + K.K1) s0 K.KMUL
  let d := combine16 (s1 + BitVec.ofNat 64 n) (c + (← B.f64 (n - 16))) K.KMUL
  return { a := s0 + d, b := s1, c := c, d := d }

/-- Part 2b, one 16-byte group from index `p` up (R198). -/
def cmGroup (K : Consts) (B : ByteRun) (p : Nat) (r : CMRegs) : Option CMRegs := do
  let a := (r.a ^^^ (shiftMix ((← B.f64 p) * K.K1) * K.K1)) * K.K1
  let b := r.b ^^^ a
  let c := (r.c ^^^ (shiftMix ((← B.f64 (p + 8)) * K.K1) * K.K1)) * K.K1
  let d := r.d ^^^ c
  return { a := a, b := b, c := c, d := d }

/-- Part 2b, the group loop: `left` groups still to come, the next one from index `p` up (R198). -/
def cmLoop (K : Consts) (B : ByteRun) : (left p : Nat) → CMRegs → Option CMRegs
  | 0, _, r => some r
  | left + 1, p, r => do
    let r ← cmGroup K B p r
    cmLoop K B left (p + 16) r

/-- The number of groups, `G = ceil((n - 16) / 16)` (R198). -/
def cmGroups (n : Nat) : Nat := (n - 16 + 15) / 16

/-- Parts 1 and 2: the four registers from the seed, the length and the run (R195 to R198). -/
def cmMix (K : Consts) (B : ByteRun) (s0 s1 : Word) : Option CMRegs :=
  if B.len ≤ 16 then cmShortRun K B s0 s1
  else do
    let r ← cmStart K B s0 s1
    cmLoop K B (cmGroups B.len) 0 r

/-- Parts 3 to 5: the adjustment of `d` (R199), the swap rule on bit 0 of the adjusted `d` (R200) and the final combine (R201). -/
def cmFinish (K : Consts) (adj : Word) (r : CMRegs) : Word × Word :=
  let d := r.d - adj
  let a2 := combine16 r.a r.c K.KMUL
  let b2 := combine16 d r.b K.KMUL
  let lo := a2 ^^^ b2
  let hi := combine16 b2 a2 K.KMUL
  if d.getLsbD 0 then (hi, lo) else (lo, hi)

/-- `CM(B, s0, s1, adj)`: the CityMurmur procedure, for a run of any length (R195). -/
def cityMurmur (K : Consts) (B : ByteRun) (s0 s1 adj : Word) : Option (Word × Word) := do
  let r ← cmMix K B s0 s1
  return cmFinish K adj r

/-- `H128_long(B, s0, s1)`: the derived seed, then CityMurmur without the last 16 bytes, adjusted by 16 (R202, R203). -/
def h128Long (K : Consts) (B : ByteRun) (s0 s1 : Word) : Option (Word × Word) := do
  let n := B.len
  let hh ← h64 K (B.sub 0 16)
  let ht ← h64 K (B.sub (n - 16) n)
  let d0 := combine16 (hh + K.K0) s0 K.KMUL
  let d1 := combine16 (ht + K.K1) s1 K.KMUL
  cityMurmur K (B.sub 0 (n - 16)) d0 d1 16

/-- `H128S(B, s0, s1)`: the regime is chosen by the length of the run it is given (R194). -/
def h128s (K : Consts) (B : ByteRun) (s0 s1 : Word) : Option (Word × Word) :=
  if B.len < 128 then cityMurmur K B s0 s1 0 else h128Long K B s0 s1

/-- `H128(B)`: the default seed below 16 bytes, else the seed of the first 16 bytes on the rest of the run (R193). -/
def h128 (K : Consts) (B : ByteRun) : Option (Word × Word) :=
  if B.len < 16 then h128s K B K.K0 K.K1
  else do
    let lo ← B.f64 0
    let hi ← B.f64 8
    h128s K (B.sub 16 B.len) lo (hi + K.K0)

/-- `HASH128 rd` (R190). -/
def execHash128 (rd : Reg) (s : State) : Result :=
  completeWith (h128 consts s.window) (fun v => s.setPair rd v)

/-- `HASH128S rd, ra, rb` (R191). -/
def execHash128s (rd ra rb : Reg) (s : State) : Result :=
  completeWith (h128s consts s.window (s.reg ra) (s.reg rb)) (fun v => s.setPair rd v)

end Sys2Proof.Machine
end

