-- ==== Sys2Proof/Machine/Hash32.lean ====
section
/-! DEFINITION. The hash32 length-bucketed mixer and `HASH32` (42_hash32.md). All arithmetic is on 32-bit words, modulo 2^32; the length enters a
value modulo 2^32 and enters an offset, a bucket test or a loop count whole (U8). The formulas are the spec's decision D17 (log 9). A
`none` is a fetch past the end of the run (R115), which R152 says does not happen. -/

namespace Sys2Proof.Machine

/-- The avalanche finalizer `fmix` (R142). -/
def fmix (K : Consts) (h : Half) : Half :=
  let h := h ^^^ (h >>> 16)
  let h := h * K.FM1
  let h := h ^^^ (h >>> 13)
  let h := h * K.FM2
  h ^^^ (h >>> 16)

/-- The step `h = rotr32(h, r); h = h * 5 + C3` that ends `mur` and recurs in the longest bucket (R143, R148, R149, R150). -/
def mur5 (K : Consts) (h : Half) (r : Nat) : Half := rotr32 h r * 5 + K.C3

/-- The mixing step `mur(a, h)`: data `a`, accumulator `h` (R143). -/
def mur (K : Consts) (a h : Half) : Half :=
  let a := a * K.C1
  let a := rotr32 a 17
  let a := a * K.C2
  mur5 K (h ^^^ a) 19

/-- `bswap32(v)`: the four bytes reversed (R144). -/
def bswap32 (v : Half) : Half :=
  v.extractLsb' 0 8 ++ v.extractLsb' 8 8 ++ v.extractLsb' 16 8 ++ v.extractLsb' 24 8

/-- `pre(v) = rotr32(v * C1, 17) * C2` (R148). -/
def pre (K : Consts) (v : Half) : Half := rotr32 (v * K.C1) 17 * K.C2

/-- The byte loop of the bucket `n <= 4`: the bytes from index `i` up, `left` of them still to come (R145). -/
def h32Bytes (K : Consts) (B : ByteRun) : (left i : Nat) → (b c : Half) → Option (Half × Half)
  | 0, _, b, c => some (b, c)
  | left + 1, i, b, c => do
    let v ← B.byte i
    let b := b * K.C1 + v.setWidth 32
    h32Bytes K B left (i + 1) b (c ^^^ b)

/-- Bucket `n <= 4` (R145). -/
def h32Len0to4 (K : Consts) (B : ByteRun) : Option Half := do
  let (b, c) ← h32Bytes K B B.len 0 0 9
  return fmix K (mur K b (mur K (BitVec.ofNat 32 B.len) c))

/-- Bucket `5 <= n <= 12` (R146). -/
def h32Len5to12 (K : Consts) (B : ByteRun) : Option Half := do
  let n := B.len
  let d := BitVec.ofNat 32 n * 5
  let a := BitVec.ofNat 32 n + (← B.f32 0)
  let b := BitVec.ofNat 32 n * 5 + (← B.f32 (n - 4))
  let c := 9 + (← B.f32 ((n >>> 1) &&& 4))
  return fmix K (mur K c (mur K b (mur K a d)))

/-- Bucket `13 <= n <= 24` (R147). -/
def h32Len13to24 (K : Consts) (B : ByteRun) : Option Half := do
  let n := B.len
  let a ← B.f32 ((n >>> 1) - 4)
  let b ← B.f32 4
  let c ← B.f32 (n - 8)
  let d ← B.f32 (n >>> 1)
  let e ← B.f32 0
  let f ← B.f32 (n - 4)
  let h := BitVec.ofNat 32 n
  return fmix K (mur K f (mur K e (mur K d (mur K c (mur K b (mur K a h))))))

/-- The scratch registers of the longest bucket, local to one call (R37). -/
structure H32Regs where
  f : Half
  g : Half
  h : Half
  deriving DecidableEq, Repr

/-- Bucket `n > 24`, start (R148). -/
def h32Start (K : Consts) (B : ByteRun) : Option H32Regs := do
  let n := B.len
  let h := BitVec.ofNat 32 n
  let g := K.C1 * BitVec.ofNat 32 n
  let f := g
  let a0 := pre K (← B.f32 (n - 4))
  let a1 := pre K (← B.f32 (n - 8))
  let a2 := pre K (← B.f32 (n - 16))
  let a3 := pre K (← B.f32 (n - 12))
  let a4 := pre K (← B.f32 (n - 20))
  let h := mur5 K (h ^^^ a0) 19
  let h := mur5 K (h ^^^ a2) 19
  let g := mur5 K (g ^^^ a1) 19
  let g := mur5 K (g ^^^ a3) 19
  let f := mur5 K (f + a4) 19
  return { f := f, g := g, h := h }

/-- Bucket `n > 24`, one pass of the loop, over the 20 bytes from index `p` up (R149). -/
def h32Pass (K : Consts) (B : ByteRun) (p : Nat) (r : H32Regs) : Option H32Regs := do
  let a0 := pre K (← B.f32 p)
  let a1 ← B.f32 (p + 4)
  let a2 := pre K (← B.f32 (p + 8))
  let a3 := pre K (← B.f32 (p + 12))
  let a4 ← B.f32 (p + 16)
  let h := mur5 K (r.h ^^^ a0) 18
  let f := rotr32 (r.f + a1) 19 * K.C1
  let g := mur5 K (r.g + a2) 18
  let h := mur5 K (h ^^^ (a3 + a1)) 19
  let g := bswap32 (g ^^^ a4) * 5
  let h := bswap32 (h + a4 * 5)
  let f := f + a0
  return { f := g, h := f, g := h }

/-- The loop: `left` passes still to come, the next one over the bytes from index `p` up (R149). -/
def h32Loop (K : Consts) (B : ByteRun) : (left p : Nat) → H32Regs → Option H32Regs
  | 0, _, r => some r
  | left + 1, p, r => do
    let r ← h32Pass K B p r
    h32Loop K B left (p + 20) r

/-- Bucket `n > 24`, end (R150). It does not pass through `fmix`. -/
def h32End (K : Consts) (r : H32Regs) : Half :=
  let g := rotr32 r.g 11 * K.C1
  let g := rotr32 g 17 * K.C1
  let f := rotr32 r.f 11 * K.C1
  let f := rotr32 f 17 * K.C1
  let h := mur5 K (r.h + g) 19
  let h := rotr32 h 17 * K.C1
  let h := mur5 K (h + f) 19
  rotr32 h 17 * K.C1

/-- Bucket `n > 24` (R148 to R150): `(n - 1) div 20` passes, from the full length. -/
def h32Over24 (K : Consts) (B : ByteRun) : Option Half := do
  let r ← h32Start K B
  let r ← h32Loop K B ((B.len - 1) / 20) 0 r
  return h32End K r

/-- `H32(B)`: dispatch on the length alone (R141). -/
def h32 (K : Consts) (B : ByteRun) : Option Half :=
  if B.len ≤ 4 then h32Len0to4 K B
  else if B.len ≤ 12 then h32Len5to12 K B
  else if B.len ≤ 24 then h32Len13to24 K B
  else h32Over24 K B

/-- `HASH32 rd` (R140). -/
def execHash32 (rd : Reg) (s : State) : Result :=
  completeWith (h32 consts s.window) (fun v => s.setReg32 rd v)

end Sys2Proof.Machine
end

