-- ==== Sys2Proof/Machine/Mixing.lean ====
section
/-! DEFINITION. The eight commands that expose the mixing primitives (41_mixing_primitives.md section 2). None reads memory or can fault. -/

namespace Sys2Proof.Machine

/-- `ROTR64 rd, ra, rb` (R125). -/
def execRotr64 (rd ra rb : Reg) (s : State) : Result :=
  .next (s.setReg rd (rotr64 (s.reg ra) (s.amount rb 64)))

/-- `ROTR64I rd, ra, imm6` (R126). -/
def execRotr64i (rd ra : Reg) (imm6 : Nat) (s : State) : Result :=
  .next (s.setReg rd (rotr64 (s.reg ra) imm6))

/-- `ROTR32 rd, ra, rb` (R127). -/
def execRotr32 (rd ra rb : Reg) (s : State) : Result :=
  .next (s.setReg32 rd (rotr32 (s.low32 ra) (s.amount rb 32)))

/-- `ROTR32I rd, ra, imm6` (R128). -/
def execRotr32i (rd ra : Reg) (imm6 : Nat) (s : State) : Result :=
  .next (s.setReg32 rd (rotr32 (s.low32 ra) (imm6 % 32)))

/-- `SHMIX rd, ra` (R129). -/
def execShmix (rd ra : Reg) (s : State) : Result :=
  .next (s.setReg rd (shiftMix (s.reg ra)))

/-- `COMB16 rd, ra, rb`: the default multiplier `KMUL` (R130). -/
def execComb16 (rd ra rb : Reg) (s : State) : Result :=
  .next (s.setReg rd (combine16 (s.reg ra) (s.reg rb) consts.KMUL))

/-- `COMB16M rd, ra, rb, rc`: an explicit multiplier (R131). -/
def execComb16m (rd ra rb rc : Reg) (s : State) : Result :=
  .next (s.setReg rd (combine16 (s.reg ra) (s.reg rb) (s.reg rc)))

/-- `WPAIR32 rd, ra, rb, rc`: the quad `ra`, the seeds `rb` and `rc`, the pair `rd` (R132). -/
def execWpair32 (rd ra rb rc : Reg) (s : State) : Result :=
  .next (s.setPair rd (weakPair32 (s.quad ra 0) (s.quad ra 1) (s.quad ra 2) (s.quad ra 3) (s.reg rb) (s.reg rc)))

end Sys2Proof.Machine
end

