-- ==== Sys2Proof/Machine/WordFetch.lean ====
section
/-! DEFINITION. The word-fetch unit's commands (40_word_fetch.md section 2). A fetch past the end of the window takes FETCH_BOUNDS with the
offset recorded (R221). -/

namespace Sys2Proof.Machine

/-- `FETCH32 rd, [ra]` (R112). -/
def execFetch32 (rd ra : Reg) (s : State) : Result :=
  match s.window.f32 (s.offset ra) with
  | none => .next (raiseFault .fetchBounds (s.reg ra) s)
  | some v => .next (s.setReg32 rd v)

/-- `FETCH64 rd, [ra]` (R113). -/
def execFetch64 (rd ra : Reg) (s : State) : Result :=
  match s.window.f64 (s.offset ra) with
  | none => .next (raiseFault .fetchBounds (s.reg ra) s)
  | some v => .next (s.setReg rd v)

end Sys2Proof.Machine
end

