-- ==== Sys2Proof/Machine/Dispatch.lean ====
section
/-! DEFINITION. One arm per constructor of Instr (30_encoding.md R83, 70_reset_and_hazards.md R254). -/

namespace Sys2Proof.Machine

def exec (i : Instr) (s : State) : Host.Outcome State Fault Refusal :=
  match i with
  | .fetch32 rd ra => Sys2Proof.Machine.execFetch32 rd ra s
  | .fetch64 rd ra => Sys2Proof.Machine.execFetch64 rd ra s
  | .rotr64 rd ra rb => Sys2Proof.Machine.execRotr64 rd ra rb s
  | .rotr64i rd ra imm6 => Sys2Proof.Machine.execRotr64i rd ra imm6 s
  | .rotr32 rd ra rb => Sys2Proof.Machine.execRotr32 rd ra rb s
  | .rotr32i rd ra imm6 => Sys2Proof.Machine.execRotr32i rd ra imm6 s
  | .shmix rd ra => Sys2Proof.Machine.execShmix rd ra s
  | .comb16 rd ra rb => Sys2Proof.Machine.execComb16 rd ra rb s
  | .comb16m rd ra rb rc => Sys2Proof.Machine.execComb16m rd ra rb rc s
  | .wpair32 rd ra rb rc => Sys2Proof.Machine.execWpair32 rd ra rb rc s
  | .hash32 rd => Sys2Proof.Machine.execHash32 rd s
  | .hash64 rd => Sys2Proof.Machine.execHash64 rd s
  | .hash64s rd ra => Sys2Proof.Machine.execHash64s rd ra s
  | .hash64s2 rd ra rb => Sys2Proof.Machine.execHash64s2 rd ra rb s
  | .hash128 rd => Sys2Proof.Machine.execHash128 rd s
  | .hash128s rd ra rb => Sys2Proof.Machine.execHash128s rd ra rb s

end Sys2Proof.Machine
end

