-- ==== Sys2Proof/Machine/HostPort.lean ====
section
/-! DEFINITION. The host register port and the transactions (20_memory.md R60, 70_reset_and_hazards.md R254): what a read returns, what a write does,
how a value written to `CMD` is taken as a command, and the environment's two actions. -/

namespace Sys2Proof.Machine

/-- A value written to `CMD` with FAULT = 0 is decoded and executed to its end (R29, R93); what is no command takes ILLEGAL_CMD with the
whole value recorded (R222). -/
def runCommand (v : Word) (s : State) : Result :=
  match decode v with
  | .ok i => exec i s
  | .error _ => .next (raiseFault .illegalCmd v s)

/-- The operand register behind a port number of 16 or more: number `16 + i` is `x[i]` (R60). -/
def portReg (k : PortNum) : Reg := Fin.ofNat 16 (k.val - 16)

/-- What a host read of register number `k` returns (R60): 0 for `CMD` (R29) and for the unmapped numbers 5 to 15 (R34). -/
def hostRead (k : PortNum) (s : State) : Word :=
  if k.val = 1 then readableStatus s.status
  else if k.val = 2 then s.bufBase
  else if k.val = 3 then s.bufLen
  else if k.val = 4 then s.finfo
  else if 16 ≤ k.val then s.reg (portReg k)
  else 0

/-- A host write of `v` to register number `k` (R254): ignored while FAULT = 1, whatever `k` (R227); a command for `k = 0` (R29); all 64
bits of a read-write register replaced (R60); ignored for the read-only and the unmapped numbers (R30, R33, R34). -/
def hostWrite (k : PortNum) (v : Word) (s : State) : Result :=
  if s.fault then .next s
  else if k.val = 0 then runCommand v s
  else if k.val = 2 then .next { s with bufBase := v }
  else if k.val = 3 then .next { s with bufLen := v }
  else if 16 ≤ k.val then .next (s.setReg (portReg k) v)
  else .next s

/-- One transaction, to its end (R253, R254). -/
def perform (t : Transaction) (s : State) : Result :=
  match t with
  | .reset => .next (resetCore s)
  | .read k => .next { s with reads := s.reads ++ [hostRead k s] }
  | .write k v => hostWrite k v s
  | .mem addr bytes => .next { s with mem := memPlace s.mem addr bytes }

/-- The next transaction of the run taken off the host's list, and the state without it (R258; log 3). -/
def nextTransaction (s : State) : Option (Transaction × State) :=
  match s.pending with
  | [] => none
  | t :: rest => some (t, { s with pending := rest })

/-- The port write that presents a command value: number 0 is `CMD` (R29). -/
def commandWrite (v : Word) : Transaction := .write 0 v

end Sys2Proof.Machine
end

