-- ==== Sys2Proof/Machine/Step.lean ====
section
/-! DEFINITION. The step function (70_reset_and_hazards.md R253, R254, R258): one host transaction, whole. -/

namespace Sys2Proof.Machine

/-- One step performs the next transaction of the run (R254). With none left the run is over and CORE stays as it is: it has no halt and does
nothing of its own (R258; log 3, DESIGN CHOICE). -/
def step (s : State) : Host.Outcome State Fault Refusal :=
  match nextTransaction s with
  | none => .next s
  | some (t, s') => perform t s'

/-- The state in which the host's next transaction writes the `nbits` low bits of `w` to `CMD` (R29): CORE fetches no instruction, so this
is where a command comes from (R64; log 16). Nothing else changes. -/
def State.withFetchWord (s : State) (nbits w : Nat) : State :=
  { s with pending := commandWrite (tableValue nbits w) :: s.pending }

end Sys2Proof.Machine
end

