-- ==== Sys2Proof/Machine/Assembler.lean ====
section
/-! DEFINITION. The assembler of the spec (30_encoding.md R90 to R92): statements as data, the transaction each stands for, and the reading of a text
into statements. It is the host's tool and no part of the step; a program it makes is a list for `State.pending` (R258). -/

namespace Sys2Proof.Machine

/-- What the directive `rd` may name (R92). -/
inductive ReadName where
  | x (r : Reg)
  | status
  | finfo
  | bufBase
  | bufLen
  deriving DecidableEq, Repr

/-- One statement: a command (R90), a pseudo-instruction (R91) or a host directive (R92). -/
inductive Stmt where
  | command (i : Instr)
  /-- `mov xd, xa` -/
  | mov (rd ra : Reg)
  /-- `zext32 xd, xa` -/
  | zext32 (rd ra : Reg)
  /-- `wr xN, value` -/
  | wrX (r : Reg) (v : Word)
  /-- `wr BUF_BASE, value` -/
  | wrBufBase (v : Word)
  /-- `wr BUF_LEN, value` -/
  | wrBufLen (v : Word)
  /-- `rd <name>` -/
  | readOf (n : ReadName)
  /-- `mem addr, b0 b1 ...` -/
  | mem (addr : Word) (bytes : List Byte)
  /-- `reset` -/
  | reset
  deriving DecidableEq, Repr

/-- The port number of operand register `x[r]`: `16 + r` (R60). -/
def portOfReg (r : Reg) : PortNum := Fin.ofNat 32 (16 + r.val)

/-- The port number that the directive `rd` reads (R92, R60). -/
def ReadName.port (n : ReadName) : PortNum :=
  match n with
  | .x r => portOfReg r
  | .status => 1
  | .finfo => 4
  | .bufBase => 2
  | .bufLen => 3

/-- The expansion of the pseudo-instruction `mov`: a rotation by 0 (R91). -/
def movExpansion (rd ra : Reg) : Instr := .rotr64i rd ra 0

/-- The expansion of the pseudo-instruction `zext32`: a 32-bit rotation by 0 (R91). -/
def zext32Expansion (rd ra : Reg) : Instr := .rotr32i rd ra 0

/-- The transaction a statement stands for (R90, R91, R92). -/
def Stmt.transaction (st : Stmt) : Transaction :=
  match st with
  | .command i => commandWrite (encodeValue i)
  | .mov rd ra => commandWrite (encodeValue (movExpansion rd ra))
  | .zext32 rd ra => commandWrite (encodeValue (zext32Expansion rd ra))
  | .wrX r v => .write (portOfReg r) v
  | .wrBufBase v => .write 2 v
  | .wrBufLen v => .write 3 v
  | .readOf n => .read n.port
  | .mem addr bytes => .mem addr bytes
  | .reset => .reset

/-- A program is the list of its statements' transactions (R258). -/
def assemble (p : List Stmt) : List Transaction := p.map Stmt.transaction

/-! ### Reading a text (R90; what R90 leaves open is in log 12) -/

/-- The tokens of a line: runs of characters other than space, tab, carriage return and comma. `acc` is the token being read. -/
def tokensFrom (acc : List Char) : List Char → List (List Char)
  | [] => if acc.isEmpty then [] else [acc]
  | c :: rest =>
    if c = ' ' ∨ c = ',' ∨ c = '\t' ∨ c = '\r' then
      (if acc.isEmpty then tokensFrom [] rest else acc :: tokensFrom [] rest)
    else tokensFrom (acc ++ [c.toLower]) rest

/-- The tokens of a line without its comment: `;` starts a comment (R90). -/
def tokensOf (line : List Char) : List (List Char) := tokensFrom [] (line.takeWhile (· ≠ ';'))

/-- The value of a digit in base 16. -/
def digitOf (c : Char) : Option Nat :=
  if '0' ≤ c ∧ c ≤ '9' then some (c.toNat - '0'.toNat)
  else if 'a' ≤ c ∧ c ≤ 'f' then some (c.toNat - 'a'.toNat + 10)
  else none

/-- The value of a run of digits in `base`, after the value `acc` read so far. -/
def digitsFrom (base acc : Nat) : List Char → Option Nat
  | [] => some acc
  | c :: rest => do
    let d ← digitOf c
    if d < base then digitsFrom base (acc * base + d) rest else none

/-- A number in decimal or `0x` hexadecimal (R90), below `bound`. DESIGN CHOICE (log 12): leading zeros are read and do not change the
base. -/
def numberOf (bound : Nat) (t : List Char) : Option Nat := do
  let n ← match t with
    | '0' :: 'x' :: c :: rest => digitsFrom 16 0 (c :: rest)
    | c :: rest => digitsFrom 10 0 (c :: rest)
    | [] => none
  if n < bound then some n else none

/-- A 64-bit value. -/
def wordOf (t : List Char) : Option Word := (numberOf (2 ^ 64) t).map (BitVec.ofNat 64)

/-- A rotate distance `0 <= s <= 63` (R90). -/
def distanceOf (t : List Char) : Option Nat := numberOf 64 t

/-- A byte of `mem`: two hexadecimal digits without a prefix, as the programs of 95_test_vectors.md write it. -/
def byteOf (t : List Char) : Option Byte :=
  if t.length = 2 then (digitsFrom 16 0 t).map (BitVec.ofNat 8) else none

/-- A register name `x0` to `x15` (R21, R90). DESIGN CHOICE (log 12): leading zeros are read, so `x01` and `x007` are the registers 1 and 7; the
spec gives the sixteen names and does not say what such a text is. -/
def regOf (t : List Char) : Option Reg :=
  match t with
  | 'x' :: c :: rest => do
    let n ← digitsFrom 10 0 (c :: rest)
    if n < 16 then some (Fin.ofNat 16 n) else none
  | _ => none

/-- An offset operand `[xa]` (R88, R90). -/
def offsetRegOf (t : List Char) : Option Reg :=
  match t with
  | '[' :: rest => if rest.getLast? = some ']' then regOf rest.dropLast else none
  | _ => none

/-- The commands of one destination, or of a destination and an offset, source or distance (R90). -/
def commandOf2 (name : List Char) (args : List (List Char)) : Option Instr :=
  match args with
  | [d] => do
    let d ← regOf d
    if name = "hash32".toList then some (.hash32 d)
    else if name = "hash64".toList then some (.hash64 d)
    else if name = "hash128".toList then some (.hash128 d)
    else none
  | [d, a] => do
    let d ← regOf d
    if name = "fetch32".toList then (offsetRegOf a).map (.fetch32 d)
    else if name = "fetch64".toList then (offsetRegOf a).map (.fetch64 d)
    else if name = "shmix".toList then (regOf a).map (.shmix d)
    else if name = "hash64s".toList then (regOf a).map (.hash64s d)
    else none
  | _ => none

/-- The commands of three or four operands (R90). -/
def commandOf4 (name : List Char) (args : List (List Char)) : Option Instr :=
  match args with
  | [d, a, b] => do
    let d ← regOf d
    let a ← regOf a
    if name = "rotr64i".toList then (distanceOf b).map (.rotr64i d a)
    else if name = "rotr32i".toList then (distanceOf b).map (.rotr32i d a)
    else if name = "rotr64".toList then (regOf b).map (.rotr64 d a)
    else if name = "rotr32".toList then (regOf b).map (.rotr32 d a)
    else if name = "comb16".toList then (regOf b).map (.comb16 d a)
    else if name = "hash64s2".toList then (regOf b).map (.hash64s2 d a)
    else if name = "hash128s".toList then (regOf b).map (.hash128s d a)
    else none
  | [d, a, b, c] => do
    let d ← regOf d
    let a ← regOf a
    let b ← regOf b
    let c ← regOf c
    if name = "comb16m".toList then some (.comb16m d a b c)
    else if name = "wpair32".toList then some (.wpair32 d a b c)
    else none
  | _ => none

/-- A command statement (R90). -/
def commandOf (name : List Char) (args : List (List Char)) : Option Instr :=
  (commandOf2 name args).or (commandOf4 name args)

/-- What the directive `rd` names (R92). -/
def readNameOf (t : List Char) : Option ReadName :=
  if t = "status".toList then some .status
  else if t = "finfo".toList then some .finfo
  else if t = "buf_base".toList then some .bufBase
  else if t = "buf_len".toList then some .bufLen
  else (regOf t).map .x

/-- The directive `wr` (R92). -/
def writeStmtOf (target value : List Char) : Option Stmt := do
  let v ← wordOf value
  if target = "buf_base".toList then some (.wrBufBase v)
  else if target = "buf_len".toList then some (.wrBufLen v)
  else (regOf target).map (fun r => .wrX r v)

/-- A pseudo-instruction (R91). -/
def pseudoOf (name : List Char) (args : List (List Char)) : Option Stmt :=
  match args with
  | [d, a] => do
    let d ← regOf d
    let a ← regOf a
    if name = "mov".toList then some (.mov d a)
    else if name = "zext32".toList then some (.zext32 d a)
    else none
  | _ => none

/-- A host directive (R92). -/
def directiveOf (name : List Char) (args : List (List Char)) : Option Stmt :=
  if name = "reset".toList then (if args.isEmpty then some .reset else none)
  else if name = "wr".toList then
    match args with
    | [t, v] => writeStmtOf t v
    | _ => none
  else if name = "rd".toList then
    match args with
    | [t] => (readNameOf t).map .readOf
    | _ => none
  else if name = "mem".toList then
    match args with
    | a :: bytes => do
      let addr ← wordOf a
      let bs ← bytes.mapM byteOf
      some (.mem addr bs)
    | [] => none
  else none

/-- One line: the statements on it, none for an empty line; no answer for a line that is no statement (R90). -/
def lineOf (line : List Char) : Option (List Stmt) :=
  match tokensOf line with
  | [] => some []
  | name :: args =>
    (((commandOf name args).map Stmt.command).or ((pseudoOf name args).or (directiveOf name args))).map ([·])

/-- The lines of a text. `acc` is the line being read. -/
def linesFrom (acc : List Char) : List Char → List (List Char)
  | [] => [acc]
  | c :: rest => if c = '\n' then acc :: linesFrom [] rest else linesFrom (acc ++ [c]) rest

/-- A text of statements, one a line (R90). -/
def parseProgram (text : List Char) : Option (List Stmt) :=
  ((linesFrom [] text).mapM lineOf).map List.flatten

end Sys2Proof.Machine
end

