-- ==== Sys2Proof/Safety.lean ====
section
/-! DEFINITION. What counts as a safe run, in the terms claims use: frames, fault entry, and the invariant of the machine. -/

namespace Sys2Proof.Machine

/-- Everything but the operand registers is the same in `t` as in `s`: `STATUS`, `FINFO`, `BUF_BASE`, `BUF_LEN`, every byte of memory, and
what the host has still to do and has read. -/
def SameButRegs (s t : State) : Prop :=
  t.status = s.status ∧ t.finfo = s.finfo ∧ t.bufBase = s.bufBase ∧ t.bufLen = s.bufLen ∧
  (∀ a : Word, t.mem.read a = s.mem.read a) ∧ t.pending = s.pending ∧ t.reads = s.reads

/-- The frame of a command: from `s` to `t` no register but those of `dest` changes, and nothing else does (R229). -/
def WritesOnly (dest : List Reg) (s t : State) : Prop :=
  (∀ r : Reg, r ∉ dest → t.reg r = s.reg r) ∧ SameButRegs s t

/-- The destination registers of a command: its register, or its pair (R22, R24). -/
def destRegs (i : Instr) : List Reg :=
  match i with
  | .fetch32 rd _ => [rd]
  | .fetch64 rd _ => [rd]
  | .rotr64 rd _ _ => [rd]
  | .rotr64i rd _ _ => [rd]
  | .rotr32 rd _ _ => [rd]
  | .rotr32i rd _ _ => [rd]
  | .shmix rd _ => [rd]
  | .comb16 rd _ _ => [rd]
  | .comb16m rd _ _ _ => [rd]
  | .wpair32 rd _ _ _ => [rd, rd + 1]
  | .hash32 rd => [rd]
  | .hash64 rd => [rd]
  | .hash64s rd _ => [rd]
  | .hash64s2 rd _ _ => [rd]
  | .hash128 rd => [rd, rd + 1]
  | .hash128s rd _ _ => [rd, rd + 1]

/-- Fault entry as a relation (R226): FAULT is 1, CAUSE and FINFO hold the given values; every other bit of `STATUS`, every operand register,
`BUF_BASE`, `BUF_LEN`, every byte of memory and the host's lists are the same. -/
def TakesFault (code : BitVec 4) (info : Word) (s t : State) : Prop :=
  t.status.getLsbD 0 = true ∧ t.status.extractLsb' 4 4 = code ∧ t.finfo = info ∧
  (∀ k, k ≠ 0 → ¬ (4 ≤ k ∧ k ≤ 7) → t.status.getLsbD k = s.status.getLsbD k) ∧
  (∀ r : Reg, t.reg r = s.reg r) ∧ t.bufBase = s.bufBase ∧ t.bufLen = s.bufLen ∧
  (∀ a : Word, t.mem.read a = s.mem.read a) ∧ t.pending = s.pending ∧ t.reads = s.reads

/-- Everything CORE holds (R20) is the same in `t` as in `s`; memory and the host's lists may differ. -/
def SameCore (s t : State) : Prop :=
  t.x = s.x ∧ t.status = s.status ∧ t.bufBase = s.bufBase ∧ t.bufLen = s.bufLen ∧ t.finfo = s.finfo

/-- The legal values of `STATUS`: "exactly 0x00, 0x11 (FETCH_BOUNDS) and 0x21 (ILLEGAL_CMD)" (R30). -/
def LegalStatus (st : Word) : Prop := st = 0x00 ∨ st = 0x11 ∨ st = 0x21

/-- The invariant of the machine: memory in canonical form; a legal `STATUS` (R30); FINFO 0 while there is no fault (R33); after FETCH_BOUNDS the
frozen state still shows an offset past the end of the frozen window, held by some register (R221, R227); after ILLEGAL_CMD, FINFO is a value
that is no command (R222). -/
def Inv (s : State) : Prop :=
  s.mem.wf = true ∧ LegalStatus s.status ∧ (s.status = 0x00 → s.finfo = 0) ∧
  (s.status = 0x11 → s.bufLen.toNat < s.finfo.toNat + 8 ∧ ∃ r : Reg, s.reg r = s.finfo) ∧
  (s.status = 0x21 → ∃ e, decode s.finfo = .error e)

/-- A result that goes on: the machine neither stops with a fault nor refuses. -/
def Completes (r : Result) : Prop := ∃ t, r = .next t

end Sys2Proof.Machine
end

