-- ==== Sys2Proof/Certificates/Slice0/Obligations.lean ====
section
/-! DEFINITION. The statements for the provers, from the numbered rules of spec/. The helpers of `Sys2Proof.Claims` read the spec's formulas in terms of
the bytes of memory and of plain arithmetic, apart from the meanings they are about. -/

namespace Sys2Proof.Claims

open Sys2Proof.Machine

/-- The value of the byte at index `i` from address `base` up: address `(base + i) mod 2^64` (R36, R51). -/
def byteAt (m : Memory) (base : Word) (i : Nat) : Nat := (m.read (BitVec.ofNat 64 (base.toNat + i))).toNat

/-- The little-endian sum of four bytes (R52, R110). -/
def le32 (m : Memory) (base : Word) (i : Nat) : Nat :=
  byteAt m base i + 2 ^ 8 * byteAt m base (i + 1) + 2 ^ 16 * byteAt m base (i + 2) + 2 ^ 24 * byteAt m base (i + 3)

/-- The little-endian sum of eight bytes (R52, R111). -/
def le64 (m : Memory) (base : Word) (i : Nat) : Nat :=
  byteAt m base i + 2 ^ 8 * byteAt m base (i + 1) + 2 ^ 16 * byteAt m base (i + 2) + 2 ^ 24 * byteAt m base (i + 3) +
  2 ^ 32 * byteAt m base (i + 4) + 2 ^ 40 * byteAt m base (i + 5) + 2 ^ 48 * byteAt m base (i + 6) +
  2 ^ 56 * byteAt m base (i + 7)

/-- One byte, a 32-bit word and a 64-bit word of a run, with no check of the bound. -/
def b32 (B : ByteRun) (i : Nat) : Half := BitVec.ofNat 32 (byteAt B.mem B.base i)
def w32 (B : ByteRun) (i : Nat) : Half := BitVec.ofNat 32 (le32 B.mem B.base i)
def w64 (B : ByteRun) (i : Nat) : Word := BitVec.ofNat 64 (le64 B.mem B.base i)

/-- A length as a 32-bit and as a 64-bit word (R12). -/
def n32 (B : ByteRun) : Half := BitVec.ofNat 32 B.len
def n64 (B : ByteRun) : Word := BitVec.ofNat 64 B.len

/-- The field of a register number in a command value (R81). -/
def fieldAt (r : Reg) (lo : Nat) : Word := BitVec.ofNat 64 r.val <<< lo

/-- `v` written to `CMD` is the command `i`. -/
def CommandWord (v : Word) (i : Instr) : Prop := decode v = .ok i

/-- The reserved opcodes, the ranges of R85. -/
def ReservedOp (op : Nat) : Prop :=
  op = 0x00 ∨ (0x03 ≤ op ∧ op ≤ 0x0F) ∨ (0x18 ≤ op ∧ op ≤ 0x1F) ∨ (0x21 ≤ op ∧ op ≤ 0x2F) ∨ (0x33 ≤ op ∧ op ≤ 0x3F) ∨
  (0x42 ≤ op ∧ op ≤ 0xFF)

/-- The opcode field of a value written to `CMD` (R81). -/
def opField (v : Word) : Nat := v.toNat / 2 ^ 24 % 2 ^ 8

/-- The must-be-zero bits of each format, with the opcodes of the format (R82). -/
def mustBeZero : List (List Nat × Word) := [
  ([0x20, 0x30, 0x40], 0x000FFFFF),
  ([0x01, 0x02, 0x14, 0x31], 0x0000FFFF),
  ([0x10, 0x12, 0x15, 0x32, 0x41], 0x00000FFF),
  ([0x16, 0x17], 0x000000FF),
  ([0x11, 0x13], 0x0000FFC0)]

/-- A must-be-zero bit of the command's format is 1 (R84). -/
def MustBeZeroBroken (v : Word) : Prop := ∃ row ∈ mustBeZero, opField v ∈ row.1 ∧ v &&& row.2 ≠ 0

/-- The opcode map: opcode and mask of the sixteen rows (R83). -/
def opcodeTable : List (Nat × Half) := [
  (0x01, 0xFF00FFFF), (0x02, 0xFF00FFFF), (0x10, 0xFF000FFF), (0x11, 0xFF00FFC0), (0x12, 0xFF000FFF), (0x13, 0xFF00FFC0),
  (0x14, 0xFF00FFFF), (0x15, 0xFF000FFF), (0x16, 0xFF0000FF), (0x17, 0xFF0000FF), (0x20, 0xFF0FFFFF), (0x30, 0xFF0FFFFF),
  (0x31, 0xFF00FFFF), (0x32, 0xFF000FFF), (0x40, 0xFF0FFFFF), (0x41, 0xFF000FFF)]

/-- A command word is the command of a row exactly when `(c & mask) = match`, the match being `op << 24` (R82). -/
def Admits (row : Nat × Half) (c : Half) : Prop := c &&& row.2 = BitVec.ofNat 32 row.1 <<< 24

/-- A fetch command with its width, at an offset past the end of the window (R221). -/
def FetchPastEnd (i : Instr) (ra : Reg) (s : State) : Prop :=
  (∃ rd, i = .fetch32 rd ra ∧ (s.reg ra).toNat + 4 > s.bufLen.toNat) ∨
  (∃ rd, i = .fetch64 rd ra ∧ (s.reg ra).toNat + 8 > s.bufLen.toNat)

/-- `shift_mix` on naturals below 2^64 (R122). -/
def natShiftMix (v : Nat) : Nat := v ^^^ (v / 2 ^ 47)

/-- `combine16` on naturals below 2^64, every product reduced modulo 2^64 (R123, R10). -/
def natCombine16 (u v mul : Nat) : Nat :=
  let a := natShiftMix ((u ^^^ v) * mul % 2 ^ 64)
  let b := natShiftMix ((v ^^^ a) * mul % 2 ^ 64)
  b * mul % 2 ^ 64

/-- The number of one bits. -/
def ones {n : Nat} (v : BitVec n) : Nat := (Finset.univ.filter (fun k : Fin n => v.getLsbD k.val = true)).card

/-! ### The loops of the engines, over words read without a check of the bound -/

/-- Bucket `n <= 4` of hash32: one byte of the loop, from (b, c) to (b, c) (R145). -/
def byteStep (K : Consts) (B : ByteRun) (bc : Half × Half) (i : Nat) : Half × Half :=
  (bc.1 * K.C1 + b32 B i, bc.2 ^^^ (bc.1 * K.C1 + b32 B i))

/-- `rotr32(h, r) * 5 + C3`. -/
def rot5 (K : Consts) (h : Half) (r : Nat) : Half := h.rotateRight r * 5 + K.C3

/-- `pre(v)` (R148). -/
def preMix (K : Consts) (v : Half) : Half := (v * K.C1).rotateRight 17 * K.C2

/-- The start of hash32's longest bucket (R148). -/
def longStart32 (K : Consts) (B : ByteRun) : H32Regs :=
  { h := rot5 K (rot5 K (n32 B ^^^ preMix K (w32 B (B.len - 4))) 19 ^^^ preMix K (w32 B (B.len - 16))) 19,
    g := rot5 K (rot5 K (K.C1 * n32 B ^^^ preMix K (w32 B (B.len - 8))) 19 ^^^ preMix K (w32 B (B.len - 12))) 19,
    f := rot5 K (K.C1 * n32 B + preMix K (w32 B (B.len - 20))) 19 }

/-- Pass `k` of hash32's longest bucket (R149): new f = old g, new h = old f, new g = old h. -/
def longPass32 (K : Consts) (B : ByteRun) (r : H32Regs) (k : Nat) : H32Regs :=
  let p := 20 * k
  let a0 := preMix K (w32 B p)
  let a1 := w32 B (p + 4)
  let a2 := preMix K (w32 B (p + 8))
  let a3 := preMix K (w32 B (p + 12))
  let a4 := w32 B (p + 16)
  { h := (r.f + a1).rotateRight 19 * K.C1 + a0,
    f := bswap32 (rot5 K (r.g + a2) 18 ^^^ a4) * 5,
    g := bswap32 (rot5 K (rot5 K (r.h ^^^ a0) 18 ^^^ (a3 + a1)) 19 + a4 * 5) }

/-- The end of hash32's longest bucket (R150). -/
def longEnd32 (K : Consts) (r : H32Regs) : Half :=
  let g := ((r.g.rotateRight 11 * K.C1).rotateRight 17) * K.C1
  let f := ((r.f.rotateRight 11 * K.C1).rotateRight 17) * K.C1
  let h := (rot5 K (r.h + g) 19).rotateRight 17 * K.C1
  (rot5 K (h + f) 19).rotateRight 17 * K.C1

/-- The initialization of hash64's rolling loop (R170). -/
def rollStart (K : Consts) (B : ByteRun) : H64Regs :=
  { sx := K.SEEDX * K.K2 + w64 B 0, sy := K.SEEDX * K.K1 + K.SEEDY,
    sz := shiftMix ((K.SEEDX * K.K1 + K.SEEDY) * K.K2 + K.SEEDY) * K.K2,
    vfirst := 0, vsecond := 0, wfirst := 0, wsecond := 0, mul := K.K1 }

/-- The chunk step `RND(p, m9)` (R171). -/
def rollStep (B : ByteRun) (p : Nat) (m9 : Word) (r : H64Regs) : H64Regs :=
  let sx := ((r.sx + r.sy + r.vfirst + w64 B (p + 8)).rotateRight 37 * r.mul) ^^^ (r.wsecond * m9)
  let sy := (r.sy + r.vsecond + w64 B (p + 48)).rotateRight 42 * r.mul + r.vfirst * m9 + w64 B (p + 40)
  let sz := (r.sz + r.wfirst).rotateRight 33 * r.mul
  let v := weakPair32 (w64 B p) (w64 B (p + 8)) (w64 B (p + 16)) (w64 B (p + 24)) (r.vsecond * r.mul) (sx + r.wfirst)
  let w := weakPair32 (w64 B (p + 32)) (w64 B (p + 40)) (w64 B (p + 48)) (w64 B (p + 56)) (sz + r.wsecond)
    (sy + w64 B (p + 16))
  { sx := sz, sy := sy, sz := sx, vfirst := v.1, vsecond := v.2, wfirst := w.1, wsecond := w.2, mul := r.mul }

/-- The registers before the tail step (R173). -/
def rollTail (K : Consts) (n : Nat) (r : H64Regs) : H64Regs :=
  let wfirst := r.wfirst + BitVec.ofNat 64 ((n - 1) % 64)
  { r with mul := K.K1 + ((r.sz &&& 0xff) <<< 1), vfirst := r.vfirst + wfirst, wfirst := wfirst + (r.vfirst + wfirst) }

/-- The final fold (R173). -/
def rollEnd (K : Consts) (r : H64Regs) : Word :=
  combine16 (combine16 r.vfirst r.wfirst r.mul + shiftMix r.sy * K.K0 + r.sz)
    (combine16 r.vsecond r.wsecond r.mul + r.sx) r.mul

/-- One 16-byte group of the CityMurmur procedure (R198). -/
def groupStep (K : Consts) (B : ByteRun) (r : CMRegs) (i : Nat) : CMRegs :=
  let a := (r.a ^^^ (shiftMix (w64 B (16 * i) * K.K1) * K.K1)) * K.K1
  let c := (r.c ^^^ (shiftMix (w64 B (16 * i + 8) * K.K1) * K.K1)) * K.K1
  { a := a, b := r.b ^^^ a, c := c, d := r.d ^^^ c }

/-- The start of the CityMurmur procedure for a run of more than 16 bytes (R197). -/
def groupStart (K : Consts) (B : ByteRun) (s0 s1 : Word) : CMRegs :=
  let c := combine16 (w64 B (B.len - 8) + K.K1) s0 K.KMUL
  let d := combine16 (s1 + n64 B) (c + w64 B (B.len - 16)) K.KMUL
  { a := s0 + d, b := s1, c := c, d := d }

/-- The adjustment, the swap rule and the final combine (R199, R200, R201): the outputs are exchanged when the adjusted `d` is odd. -/
def murmurEnd (K : Consts) (adj : Word) (r : CMRegs) : Word × Word :=
  let a2 := combine16 r.a r.c K.KMUL
  let b2 := combine16 (r.d - adj) r.b K.KMUL
  let hi := combine16 b2 a2 K.KMUL
  if (r.d - adj).toNat % 2 = 1 then (hi, a2 ^^^ b2) else (a2 ^^^ b2, hi)

end Sys2Proof.Claims

open Sys2Proof Sys2Proof.Machine Sys2Proof.Claims

/-! ### Encoding and decoding -/

/-- Decode and encode agree: no bit of an encoding is dropped (30_encoding.md R81 to R83, R90, R93). -/
def Obligations.DecodeOfEncodeIsTheCommand : Prop :=
  ∀ i : Instr, i.WellFormed → decode (encodeValue i) = .ok i

/-- The other direction: what decodes is well formed and is the encoding of what it decodes to, so no two values are one command. -/
def Obligations.DecodedValueIsItsOwnEncoding : Prop :=
  ∀ (v : Word) (i : Instr), decode v = .ok i → i.WellFormed ∧ encodeValue i = v

/-- R86: every 32-bit word is either exactly one of the sixteen commands or illegal. -/
def Obligations.EachWordIsOneCommandOrIllegal : Prop :=
  (∀ c : Half, (∃ i, decodeWord c = .ok i) ↔ ∃ row ∈ opcodeTable, Admits row c) ∧
  (∀ c : Half, ∀ row ∈ opcodeTable, ∀ row' ∈ opcodeTable, Admits row c → Admits row' c → row = row') ∧
  (∀ c : Half, (∀ i, decodeWord c ≠ .ok i) → ∃ e, decodeWord c = .error e)

/-- Words written out from the encodings of R81 to R83 decode to the commands they stand for: one of each group of the opcode map. -/
def Obligations.WrittenOutWordsDecode : Prop :=
  decode 0x01310000 = .ok (.fetch32 3 1) ∧ decode 0x1131002F = .ok (.rotr64i 3 1 47) ∧
  decode 0x16312400 = .ok (.comb16m 3 1 2 4) ∧ decode 0x17FE8900 = .ok (.wpair32 15 14 8 9) ∧
  decode 0x20400000 = .ok (.hash32 4) ∧ decode 0x32412000 = .ok (.hash64s2 4 1 2) ∧
  decode 0x41FFF000 = .ok (.hash128s 15 15 15) ∧ decode 0x0000000130100000 = .error .upperBits ∧
  decode 0x03000000 = .error .reservedOpcode ∧ decode 0x41000F00 = .error .mustBeZero

/-- R91: the two pseudo-instructions stand for one command word each, and are exact. -/
def Obligations.PseudoInstructionsAreExact : Prop :=
  ∀ (rd ra : Reg) (s : State),
    (Stmt.mov rd ra).transaction = .write 0 (0x11000000 ||| fieldAt rd 20 ||| fieldAt ra 16) ∧
    CommandWord (0x11000000 ||| fieldAt rd 20 ||| fieldAt ra 16) (.rotr64i rd ra 0) ∧
    (∃ t, exec (.rotr64i rd ra 0) s = .next t ∧ t.reg rd = s.reg ra ∧ WritesOnly [rd] s t) ∧
    (Stmt.zext32 rd ra).transaction = .write 0 (0x13000000 ||| fieldAt rd 20 ||| fieldAt ra 16) ∧
    CommandWord (0x13000000 ||| fieldAt rd 20 ||| fieldAt ra 16) (.rotr32i rd ra 0) ∧
    (∃ t, exec (.rotr32i rd ra 0) s = .next t ∧ (t.reg rd).toNat = (s.reg ra).toNat % 2 ^ 32 ∧ WritesOnly [rd] s t)

/-! ### The step and the host port -/

/-- R29: a value written to `CMD` while FAULT = 0 is decoded and executed; while FAULT = 1 the write is ignored; a read of `CMD` gives 0. The last
clause says the same of the word that `withFetchWord` places. The host's transactions stand in `pending` and what its reads return is added to
`reads`: that is how the model writes the host down (log 3). -/
def Obligations.CommandWriteRunsDecodedCommand : Prop :=
  (∀ (s : State) (rest : List Transaction) (v : Word), s.pending = .write 0 v :: rest →
    (s.fault = false → ∀ i, decode v = .ok i → step s = exec i { s with pending := rest }) ∧
    (s.fault = false → ∀ e, decode v = .error e → ∃ t, step s = .next t ∧ TakesFault 2 v { s with pending := rest } t) ∧
    (s.fault = true → step s = .next { s with pending := rest })) ∧
  (∀ (s : State) (rest : List Transaction), s.pending = .read 0 :: rest →
    step s = .next { s with pending := rest, reads := s.reads ++ [0] }) ∧
  (∀ (s : State) (nbits w : Nat) (i : Instr), s.fault = false → decodeTableWord nbits w = some i →
    step (s.withFetchWord nbits w) = exec i s)

/-- A host read returns the register with its number, and changes no register (20_memory.md R60, 10_state.md R29, R30, R34). -/
def Obligations.HostReadReturnsTheRegister : Prop :=
  ∀ (s : State) (k : PortNum) (rest : List Transaction), s.pending = .read k :: rest →
    ∃ v : Word, step s = .next { s with pending := rest, reads := s.reads ++ [v] } ∧
      (k.val = 1 → ∀ j, v.getLsbD j = (s.status.getLsbD j && (decide (j = 0) || decide (4 ≤ j ∧ j ≤ 7)))) ∧
      (k.val = 2 → v = s.bufBase) ∧ (k.val = 3 → v = s.bufLen) ∧ (k.val = 4 → v = s.finfo) ∧
      (∀ r : Reg, k.val = 16 + r.val → v = s.reg r) ∧ (k.val = 0 ∨ (5 ≤ k.val ∧ k.val ≤ 15) → v = 0)

/-- With FAULT = 0 a host write replaces all 64 bits of a read-write register and is ignored for a read-only or unmapped number
(70_reset_and_hazards.md R254, 20_memory.md R60). -/
def Obligations.HostWriteReplacesTheRegister : Prop :=
  ∀ (s : State) (k : PortNum) (v : Word) (rest : List Transaction), s.fault = false → s.pending = .write k v :: rest →
    (k.val = 2 → step s = .next { s with pending := rest, bufBase := v }) ∧
    (k.val = 3 → step s = .next { s with pending := rest, bufLen := v }) ∧
    (∀ r : Reg, k.val = 16 + r.val →
      ∃ t, step s = .next t ∧ t.reg r = v ∧ WritesOnly [r] { s with pending := rest } t) ∧
    (k.val = 1 ∨ k.val = 4 ∨ (5 ≤ k.val ∧ k.val ≤ 15) → step s = .next { s with pending := rest })

/-- The environment's `mem` action: the bytes stand from the address upward, modulo 2^64, every other byte and every register is as before
(30_encoding.md R92; that it wraps is the model's reading, log 13). -/
def Obligations.EnvironmentPlacesBytes : Prop :=
  ∀ (s : State) (addr : Word) (bytes : List Byte) (rest : List Transaction),
    s.mem.wf = true → bytes.length ≤ 2 ^ 64 → s.pending = .mem addr bytes :: rest →
    ∃ t, step s = .next t ∧ SameCore s t ∧ t.pending = rest ∧ t.reads = s.reads ∧
      (∀ (j : Nat) (h : j < bytes.length), t.mem.read (addr + BitVec.ofNat 64 j) = bytes[j]) ∧
      (∀ a : Word, (∀ j, j < bytes.length → a ≠ addr + BitVec.ofNat 64 j) → t.mem.read a = s.mem.read a)

/-- Every step answers a next state, and so does every command in every state: CORE is total (R254: "`exec` is total"). That a step with no
transaction left answers the same state is the model's choice (log 3). -/
def Obligations.EveryStepAndCommandCompletes : Prop :=
  (∀ s : State, ∃ t, step s = .next t) ∧ (∀ (i : Instr) (s : State), ∃ t, exec i s = .next t)

/-! ### Reset and the invariant -/

/-- R39: after reset every piece of state has its value: the reset event gives it from any state, and it is what the machine starts with. -/
def Obligations.ResetPutsEveryRegisterAtItsValue : Prop :=
  (∀ (s : State) (rest : List Transaction), s.pending = .reset :: rest →
    ∃ t, step s = .next t ∧ (∀ r : Reg, t.reg r = 0) ∧ t.status = 0 ∧ t.bufBase = 0 ∧ t.bufLen = 0 ∧ t.finfo = 0 ∧
      t.mem = s.mem) ∧
  (∀ r : Reg, State.reset.reg r = 0) ∧ State.reset.status = 0 ∧ State.reset.bufBase = 0 ∧ State.reset.bufLen = 0 ∧
  State.reset.finfo = 0

/-- The invariant holds of the state after reset. -/
def Obligations.InvariantHoldsAtReset : Prop := Inv State.reset

/-- Every step keeps the invariant: memory in canonical form, a legal STATUS (R30), FINFO 0 while there is no fault (R33), and a frozen FINFO that
shows what was wrong (R221, R222, R227). -/
def Obligations.EveryStepKeepsTheInvariant : Prop :=
  ∀ s t : State, Inv s → step s = .next t → Inv t

/-! ### Faults -/

/-- R226: raising a fault writes FAULT, CAUSE and FINFO and nothing else; from the no-fault STATUS the value is 0x11 or 0x21. -/
def Obligations.FaultEntryWritesThreeFields : Prop :=
  ∀ (info : Word) (s : State),
    TakesFault 1 info s (raiseFault .fetchBounds info s) ∧ TakesFault 2 info s (raiseFault .illegalCmd info s) ∧
    (s.status = 0 → (raiseFault .fetchBounds info s).status = 0x11 ∧ (raiseFault .illegalCmd info s).status = 0x21)

/-- R220: two faults and nothing else, both raised only by a write to `CMD` with FAULT = 0. -/
def Obligations.OnlyTwoFaultsOnlyFromCommandWrites : Prop :=
  ∀ s t : State, step s = .next t → s.status = 0 → s.finfo = 0 →
    (t.status = 0 ∧ t.finfo = 0) ∨
    ∃ v rest, s.pending = .write 0 v :: rest ∧
      ((t.status = 0x11 ∧ ∃ i ra, decode v = .ok i ∧ FetchPastEnd i ra s ∧ t.finfo = s.reg ra) ∨
       (t.status = 0x21 ∧ (∃ e, decode v = .error e) ∧ t.finfo = v))

/-- R221: FETCH_BOUNDS is raised by a fetch command past the end of the window, and by no other command. -/
def Obligations.FetchPastTheWindowTakesFetchBounds : Prop :=
  ∀ s : State,
    (∀ i ra, FetchPastEnd i ra s → ∃ t, exec i s = .next t ∧ TakesFault 1 (s.reg ra) s t) ∧
    (∀ i t, exec i s = .next t → t.status ≠ s.status ∨ t.finfo ≠ s.finfo → ∃ ra, FetchPastEnd i ra s)

/-- R222, with the illegal encodings of R84, R85 and R94: a value written to `CMD` is illegal exactly when bits 63:32 are not 0, or the opcode is
reserved (240 of them), or a must-be-zero bit of the format is 1; then ILLEGAL_CMD is taken, with the whole value in FINFO. -/
def Obligations.IllegalValuesTakeIllegalCmd : Prop :=
  (∀ (s : State) (v : Word) (rest : List Transaction), s.fault = false → s.pending = .write 0 v :: rest →
    (2 ^ 32 ≤ v.toNat ∨ ReservedOp (opField v) ∨ MustBeZeroBroken v) →
    ∃ t, step s = .next t ∧ TakesFault 2 v { s with pending := rest } t) ∧
  (∀ v : Word, ¬ (2 ^ 32 ≤ v.toNat ∨ ReservedOp (opField v) ∨ MustBeZeroBroken v) → ∃ i, decode v = .ok i) ∧
  (∃ ops : List Nat, ops.length = 240 ∧ ops.Nodup ∧ ∀ op, op ∈ ops ↔ op < 256 ∧ ReservedOp op)

/-- R225: the checks are made in the order bits 63:32, opcode, must-be-zero bits, bound; so a fetch command with a nonzero must-be-zero bit and an
out-of-bounds offset reports ILLEGAL_CMD. -/
def Obligations.DecodeChecksComeBeforeTheBound : Prop :=
  (∀ v : Word, decode v = .error .upperBits ↔ 2 ^ 32 ≤ v.toNat) ∧
  (∀ v : Word, decode v = .error .reservedOpcode ↔ v.toNat < 2 ^ 32 ∧ ReservedOp (opField v)) ∧
  (∀ v : Word, decode v = .error .mustBeZero ↔ v.toNat < 2 ^ 32 ∧ ¬ ReservedOp (opField v) ∧ MustBeZeroBroken v) ∧
  (∀ (s : State) (v : Word) (rest : List Transaction) (ra : Reg),
    s.fault = false → s.pending = .write 0 v :: rest → v.toNat < 2 ^ 32 → (opField v = 0x01 ∨ opField v = 0x02) →
    v &&& 0xFFFF ≠ 0 → v.toNat / 2 ^ 16 % 2 ^ 4 = ra.val → (s.reg ra).toNat + 8 > s.bufLen.toNat →
    ∃ t, step s = .next t ∧ t.cause = 2 ∧ t.finfo = v)

/-- R227: while FAULT = 1 every host write is ignored, whatever the register number, and every host read returns the frozen value. -/
def Obligations.FaultedCoreIgnoresWrites : Prop :=
  ∀ (s : State) (rest : List Transaction), s.fault = true →
    (∀ k v, s.pending = .write k v :: rest → step s = .next { s with pending := rest }) ∧
    (∀ k, s.pending = .read k :: rest →
      ∃ t, step s = .next t ∧ SameCore s t ∧ t.mem = s.mem ∧ t.pending = rest ∧ t.reads = s.reads ++ [hostRead k s]) ∧
    (∀ t, (∀ rest', s.pending ≠ .reset :: rest') → step s = .next t → SameCore s t)

/-- A whole run after a fault: with no reset among the transactions, any number of steps goes on and leaves every register of CORE as the fault
left it (60_exceptions.md R227, R228, 70_reset_and_hazards.md R258). -/
def Obligations.FaultFreezesEveryRunWithoutReset : Prop :=
  ∀ (k : Nat) (s : State), s.fault = true → (∀ tr ∈ s.pending, tr ≠ .reset) →
    ∃ t : State, Host.Core.run Sys2Proof.core k s = .next t ∧ SameCore s t

/-- R228: the only exit from a fault is reset, which clears the fault together with all other state. -/
def Obligations.OnlyResetClearsAFault : Prop :=
  ∀ s t : State, s.fault = true → step s = .next t → t.fault = false →
    ∃ rest, s.pending = .reset :: rest ∧ (∀ r : Reg, t.reg r = 0) ∧ t.status = 0 ∧ t.bufBase = 0 ∧ t.bufLen = 0 ∧ t.finfo = 0

/-- R229: faults are precise, and a command that does not fault writes its destination register or pair and nothing else. -/
def Obligations.CommandsAreAllOrNothing : Prop :=
  ∀ (i : Instr) (s t : State), exec i s = .next t →
    (∃ ra, FetchPastEnd i ra s ∧ TakesFault 1 (s.reg ra) s t) ∨ ((∀ ra, ¬ FetchPastEnd i ra s) ∧ WritesOnly (destRegs i) s t)

/-! ### Memory and byte runs -/

/-- R59: CORE never writes memory: only the environment's `mem` action changes it. -/
def Obligations.CoreNeverWritesMemory : Prop :=
  ∀ s t : State, (∀ addr bytes rest, s.pending ≠ .mem addr bytes :: rest) → step s = .next t → t.mem = s.mem

/-- A command's result is a function of its operands and of the bytes of its window alone, wherever the window lies and whatever else memory
holds (20_memory.md R57, 10_state.md R36). -/
def Obligations.ResultsDependOnWindowBytesOnly : Prop :=
  ∀ (i : Instr) (s : State) (m : Memory) (base : Word),
    (∀ k, k < s.bufLen.toNat → byteAt m base k = byteAt s.mem s.bufBase k) →
    ∃ t, exec i s = .next t ∧ exec i { s with mem := m, bufBase := base } = .next { t with mem := m, bufBase := base }

/-- R110, R111: a fetch has a value exactly when it is in bounds, and the value is the little-endian sum. -/
def Obligations.FetchesAreLittleEndianSums : Prop :=
  ∀ (B : ByteRun) (i : Nat),
    (i + 4 ≤ B.len → ∃ v, B.f32 i = some v ∧ v.toNat = le32 B.mem B.base i) ∧ (B.len < i + 4 → B.f32 i = none) ∧
    (i + 8 ≤ B.len → ∃ v, B.f64 i = some v ∧ v.toNat = le64 B.mem B.base i) ∧ (B.len < i + 8 → B.f64 i = none)

/-- R54: a mixed-width access sees the same bytes. -/
def Obligations.MixedWidthFetchesAgree : Prop :=
  ∀ (B : ByteRun) (i : Nat), i + 8 ≤ B.len →
    ∃ lo hi w b, B.f32 i = some lo ∧ B.f32 (i + 4) = some hi ∧ B.f64 i = some w ∧ B.byte i = some b ∧
      w.toNat = lo.toNat + 2 ^ 32 * hi.toNat ∧ lo.extractLsb' 0 8 = b

/-- R116: a fetch at an offset relative to a sub-run is a fetch of the enclosing run. -/
def Obligations.SubRunFetchIsFetchOfTheRun : Prop :=
  ∀ (B : ByteRun) (p q i : Nat), q ≤ B.len →
    (i + 8 ≤ q - p → (B.sub p q).f64 i = B.f64 (p + i)) ∧ (i + 4 ≤ q - p → (B.sub p q).f32 i = B.f32 (p + i))

/-! ### The mixing primitives -/

/-- R120, R121: bit `k` of a right rotation by `s` is bit `(k + s) mod width` of the operand. -/
def Obligations.RotationsMoveEveryBit : Prop :=
  (∀ (v : Word) (s k : Nat), k < 64 → (rotr64 v s).getLsbD k = v.getLsbD ((k + s % 64) % 64)) ∧
  (∀ (v : Half) (s k : Nat), k < 32 → (rotr32 v s).getLsbD k = v.getLsbD ((k + s % 32) % 32))

/-- R134: the rotation laws, at both widths. -/
def Obligations.RotationLaws : Prop :=
  (∀ (v : Word) (s t : Nat), rotr64 v (s + 64) = rotr64 v s ∧ rotr64 (rotr64 v s) t = rotr64 v (s + t) ∧
    rotr64 v 0 = v ∧ ones (rotr64 v s) = ones v) ∧
  (∀ (v : Half) (s t : Nat), rotr32 v (s + 32) = rotr32 v s ∧ rotr32 (rotr32 v s) t = rotr32 v (s + t) ∧
    rotr32 v 0 = v ∧ ones (rotr32 v s) = ones v)

/-- R135: `shift_mix` undoes itself, and `combine16` with an odd multiplier is a bijection in its first argument. -/
def Obligations.MixersAreBijections : Prop :=
  Function.Bijective shiftMix ∧ (∀ v : Word, shiftMix (shiftMix v) = v) ∧
  ∀ v mul : Word, mul.toNat % 2 = 1 → Function.Bijective (fun u => combine16 u v mul)

/-! ### The commands -/

/-- R112: `FETCH32`. -/
def Obligations.Fetch32LoadsALittleEndianWord : Prop :=
  ∀ (rd ra : Reg) (s : State),
    CommandWord (0x01000000 ||| fieldAt rd 20 ||| fieldAt ra 16) (.fetch32 rd ra) ∧
    ((s.reg ra).toNat + 4 ≤ s.bufLen.toNat → ∃ t, exec (.fetch32 rd ra) s = .next t ∧
      (t.reg rd).toNat = le32 s.mem s.bufBase (s.reg ra).toNat ∧ WritesOnly [rd] s t) ∧
    (s.bufLen.toNat < (s.reg ra).toNat + 4 → ∃ t, exec (.fetch32 rd ra) s = .next t ∧ TakesFault 1 (s.reg ra) s t)

/-- R113: `FETCH64`. -/
def Obligations.Fetch64LoadsALittleEndianWord : Prop :=
  ∀ (rd ra : Reg) (s : State),
    CommandWord (0x02000000 ||| fieldAt rd 20 ||| fieldAt ra 16) (.fetch64 rd ra) ∧
    ((s.reg ra).toNat + 8 ≤ s.bufLen.toNat → ∃ t, exec (.fetch64 rd ra) s = .next t ∧
      (t.reg rd).toNat = le64 s.mem s.bufBase (s.reg ra).toNat ∧ WritesOnly [rd] s t) ∧
    (s.bufLen.toNat < (s.reg ra).toNat + 8 → ∃ t, exec (.fetch64 rd ra) s = .next t ∧ TakesFault 1 (s.reg ra) s t)

/-- R125: `ROTR64`. -/
def Obligations.Rotr64RotatesByARegister : Prop :=
  ∀ (rd ra rb : Reg) (s : State),
    CommandWord (0x10000000 ||| fieldAt rd 20 ||| fieldAt ra 16 ||| fieldAt rb 12) (.rotr64 rd ra rb) ∧
    ∃ t, exec (.rotr64 rd ra rb) s = .next t ∧ WritesOnly [rd] s t ∧
      ∀ k, k < 64 → (t.reg rd).getLsbD k = (s.reg ra).getLsbD ((k + (s.reg rb).toNat % 64) % 64)

/-- R126: `ROTR64I`. -/
def Obligations.Rotr64iRotatesByAnImmediate : Prop :=
  ∀ (rd ra : Reg) (imm6 : Nat) (s : State), imm6 < 64 →
    CommandWord (0x11000000 ||| fieldAt rd 20 ||| fieldAt ra 16 ||| BitVec.ofNat 64 imm6) (.rotr64i rd ra imm6) ∧
    ∃ t, exec (.rotr64i rd ra imm6) s = .next t ∧ WritesOnly [rd] s t ∧
      ∀ k, k < 64 → (t.reg rd).getLsbD k = (s.reg ra).getLsbD ((k + imm6) % 64)

/-- R127: `ROTR32`: bits 63:32 of the source are ignored, bits 63:32 of the result are 0. -/
def Obligations.Rotr32RotatesTheLowHalfByARegister : Prop :=
  ∀ (rd ra rb : Reg) (s : State),
    CommandWord (0x12000000 ||| fieldAt rd 20 ||| fieldAt ra 16 ||| fieldAt rb 12) (.rotr32 rd ra rb) ∧
    ∃ t, exec (.rotr32 rd ra rb) s = .next t ∧ WritesOnly [rd] s t ∧ (t.reg rd).toNat < 2 ^ 32 ∧
      ∀ k, k < 32 → (t.reg rd).getLsbD k = (s.reg ra).getLsbD ((k + (s.reg rb).toNat % 32) % 32)

/-- R128: `ROTR32I`. -/
def Obligations.Rotr32iRotatesTheLowHalfByAnImmediate : Prop :=
  ∀ (rd ra : Reg) (imm6 : Nat) (s : State), imm6 < 64 →
    CommandWord (0x13000000 ||| fieldAt rd 20 ||| fieldAt ra 16 ||| BitVec.ofNat 64 imm6) (.rotr32i rd ra imm6) ∧
    ∃ t, exec (.rotr32i rd ra imm6) s = .next t ∧ WritesOnly [rd] s t ∧ (t.reg rd).toNat < 2 ^ 32 ∧
      ∀ k, k < 32 → (t.reg rd).getLsbD k = (s.reg ra).getLsbD ((k + imm6 % 32) % 32)

/-- R122, R129: `SHMIX`: bits 63:17 unchanged, bit `k` up to 16 is `v[k] ^ v[k + 47]`. -/
def Obligations.ShmixFoldsTheTopBits : Prop :=
  ∀ (rd ra : Reg) (s : State),
    CommandWord (0x14000000 ||| fieldAt rd 20 ||| fieldAt ra 16) (.shmix rd ra) ∧
    ∃ t, exec (.shmix rd ra) s = .next t ∧ WritesOnly [rd] s t ∧ t.reg rd = shiftMix (s.reg ra) ∧
      (∀ k, 17 ≤ k → (t.reg rd).getLsbD k = (s.reg ra).getLsbD k) ∧
      (∀ k, k ≤ 16 → (t.reg rd).getLsbD k = ((s.reg ra).getLsbD k ^^ (s.reg ra).getLsbD (k + 47))) ∧
      (t.reg rd).toNat = natShiftMix (s.reg ra).toNat

/-- R130: `COMB16`, the default multiplier KMUL. -/
def Obligations.Comb16CombinesWithTheDefaultMultiplier : Prop :=
  ∀ (rd ra rb : Reg) (s : State),
    CommandWord (0x15000000 ||| fieldAt rd 20 ||| fieldAt ra 16 ||| fieldAt rb 12) (.comb16 rd ra rb) ∧
    ∃ t, exec (.comb16 rd ra rb) s = .next t ∧ WritesOnly [rd] s t ∧
      (t.reg rd).toNat = natCombine16 (s.reg ra).toNat (s.reg rb).toNat consts.KMUL.toNat

/-- R131: `COMB16M`, an explicit multiplier. -/
def Obligations.Comb16mCombinesWithARegister : Prop :=
  ∀ (rd ra rb rc : Reg) (s : State),
    CommandWord (0x16000000 ||| fieldAt rd 20 ||| fieldAt ra 16 ||| fieldAt rb 12 ||| fieldAt rc 8) (.comb16m rd ra rb rc) ∧
    ∃ t, exec (.comb16m rd ra rb rc) s = .next t ∧ WritesOnly [rd] s t ∧
      (t.reg rd).toNat = natCombine16 (s.reg ra).toNat (s.reg rb).toNat (s.reg rc).toNat

/-- R124, R132: `WPAIR32`: the quad of `ra`, the seeds `rb` and `rc`, all read before the pair of `rd` is written. -/
def Obligations.Wpair32UpdatesThePair : Prop :=
  ∀ (rd ra rb rc : Reg) (s : State),
    CommandWord (0x17000000 ||| fieldAt rd 20 ||| fieldAt ra 16 ||| fieldAt rb 12 ||| fieldAt rc 8) (.wpair32 rd ra rb rc) ∧
    ∃ t, exec (.wpair32 rd ra rb rc) s = .next t ∧ WritesOnly [rd, rd + 1] s t ∧ rd ≠ rd + 1 ∧
      t.reg rd = s.reg rb + s.reg ra + s.reg (ra + 1) + s.reg (ra + 2) + s.reg (ra + 3) ∧
      t.reg (rd + 1) = (s.reg rc + (s.reg rb + s.reg ra) + s.reg (ra + 3)).rotateRight 21 +
        (s.reg rb + s.reg ra + s.reg (ra + 1) + s.reg (ra + 2)).rotateRight 44 + (s.reg rb + s.reg ra)

/-- R140: `HASH32` writes the hash32 of the window, zero-extended, in every state. -/
def Obligations.Hash32WritesTheHashOfTheWindow : Prop :=
  ∀ (rd : Reg) (s : State),
    CommandWord (0x20000000 ||| fieldAt rd 20) (.hash32 rd) ∧
    ∃ h t, h32 consts s.window = some h ∧ exec (.hash32 rd) s = .next t ∧ (t.reg rd).toNat = h.toNat ∧ WritesOnly [rd] s t

/-- R160: `HASH64` writes the hash64 of the window, in every state. -/
def Obligations.Hash64WritesTheHashOfTheWindow : Prop :=
  ∀ (rd : Reg) (s : State),
    CommandWord (0x30000000 ||| fieldAt rd 20) (.hash64 rd) ∧
    ∃ h t, h64 consts s.window = some h ∧ exec (.hash64 rd) s = .next t ∧ t.reg rd = h ∧ WritesOnly [rd] s t

/-- R161, R175: `HASH64S` writes `combine16(H64(W) - x[ra], KMUL)`, in every state. -/
def Obligations.Hash64sSeedsTheHash : Prop :=
  ∀ (rd ra : Reg) (s : State),
    CommandWord (0x31000000 ||| fieldAt rd 20 ||| fieldAt ra 16) (.hash64s rd ra) ∧
    ∃ h t, h64 consts s.window = some h ∧ exec (.hash64s rd ra) s = .next t ∧ WritesOnly [rd] s t ∧
      (t.reg rd).toNat =
        natCombine16 ((h.toNat + (2 ^ 64 - (s.reg ra).toNat)) % 2 ^ 64) consts.KMUL.toNat consts.KMUL.toNat

/-- R162, R174: `HASH64S2` writes `combine16(H64(W) - x[ra], x[rb])`, in every state. -/
def Obligations.Hash64s2SeedsTheHashTwice : Prop :=
  ∀ (rd ra rb : Reg) (s : State),
    CommandWord (0x32000000 ||| fieldAt rd 20 ||| fieldAt ra 16 ||| fieldAt rb 12) (.hash64s2 rd ra rb) ∧
    ∃ h t, h64 consts s.window = some h ∧ exec (.hash64s2 rd ra rb) s = .next t ∧ WritesOnly [rd] s t ∧
      (t.reg rd).toNat =
        natCombine16 ((h.toNat + (2 ^ 64 - (s.reg ra).toNat)) % 2 ^ 64) (s.reg rb).toNat consts.KMUL.toNat

/-- R190: `HASH128` writes the pair (low, high) of the hash128 of the window, in every state. -/
def Obligations.Hash128WritesThePair : Prop :=
  ∀ (rd : Reg) (s : State),
    CommandWord (0x40000000 ||| fieldAt rd 20) (.hash128 rd) ∧
    ∃ lo hi t, h128 consts s.window = some (lo, hi) ∧ exec (.hash128 rd) s = .next t ∧
      t.reg rd = lo ∧ t.reg (rd + 1) = hi ∧ WritesOnly [rd, rd + 1] s t

/-- R191: `HASH128S` writes the pair of the seeded hash128 of the window, in every state; both seeds are read before the pair is written. -/
def Obligations.Hash128sWritesThePair : Prop :=
  ∀ (rd ra rb : Reg) (s : State),
    CommandWord (0x41000000 ||| fieldAt rd 20 ||| fieldAt ra 16 ||| fieldAt rb 12) (.hash128s rd ra rb) ∧
    ∃ lo hi t, h128s consts s.window (s.reg ra) (s.reg rb) = some (lo, hi) ∧ exec (.hash128s rd ra rb) s = .next t ∧
      t.reg rd = lo ∧ t.reg (rd + 1) = hi ∧ WritesOnly [rd, rd + 1] s t

/-! ### hash32 -/

/-- R142, R143, R144: the helper steps, in plain arithmetic modulo 2^32. -/
def Obligations.Hash32HelperSteps : Prop :=
  (∀ (K : Consts) (h : Half),
    (fmix K h).toNat =
      (let h1 := (h.toNat ^^^ (h.toNat / 2 ^ 16)) * K.FM1.toNat % 2 ^ 32
       let h2 := (h1 ^^^ (h1 / 2 ^ 13)) * K.FM2.toNat % 2 ^ 32
       h2 ^^^ (h2 / 2 ^ 16))) ∧
  (∀ (K : Consts) (a h : Half), mur K a h = (h ^^^ ((a * K.C1).rotateRight 17 * K.C2)).rotateRight 19 * 5 + K.C3) ∧
  (∀ v : Half, (bswap32 v).extractLsb' 24 8 = v.extractLsb' 0 8 ∧ (bswap32 v).extractLsb' 16 8 = v.extractLsb' 8 8 ∧
    (bswap32 v).extractLsb' 8 8 = v.extractLsb' 16 8 ∧ (bswap32 v).extractLsb' 0 8 = v.extractLsb' 24 8)

/-- R145, R146 and R147: the three shorter buckets of hash32. -/
def Obligations.Hash32ShortBuckets : Prop :=
  ∀ (K : Consts) (B : ByteRun),
    (B.len ≤ 4 → ∃ b c, (List.range B.len).foldl (byteStep K B) (0, 9) = (b, c) ∧
      h32 K B = some (fmix K (mur K b (mur K (n32 B) c)))) ∧
    (5 ≤ B.len → B.len ≤ 12 →
      h32 K B = some (fmix K (mur K (9 + w32 B (if B.len ≤ 7 then 0 else 4))
        (mur K (n32 B * 5 + w32 B (B.len - 4)) (mur K (n32 B + w32 B 0) (n32 B * 5)))))) ∧
    (13 ≤ B.len → B.len ≤ 24 →
      h32 K B = some (fmix K (mur K (w32 B (B.len - 4)) (mur K (w32 B 0) (mur K (w32 B (B.len / 2))
        (mur K (w32 B (B.len - 8)) (mur K (w32 B 4) (mur K (w32 B (B.len / 2 - 4)) (n32 B)))))))))

/-- R148, R149, R150: the longest bucket of hash32, a loop over 20-byte groups in order. -/
def Obligations.Hash32LongBucket : Prop :=
  ∀ (K : Consts) (B : ByteRun), 24 < B.len →
    h32 K B = some (longEnd32 K ((List.range ((B.len - 1) / 20)).foldl (longPass32 K B) (longStart32 K B)))

/-- R152: no fetch of `H32` is out of bounds, for any length, so it has a value for every run. -/
def Obligations.Hash32FetchesStayInBounds : Prop :=
  ∀ (K : Consts) (B : ByteRun), ∃ h, h32 K B = some h

/-! ### hash64 -/

/-- R164, R165, R166 and R167: the buckets of hash64 up to 16 bytes. -/
def Obligations.Hash64ShortBuckets : Prop :=
  ∀ (K : Consts) (B : ByteRun),
    (B.len = 0 → h64 K B = some K.K2) ∧
    (1 ≤ B.len → B.len ≤ 3 →
      h64 K B = some (shiftMix
        ((BitVec.ofNat 64 (byteAt B.mem B.base 0 + 2 ^ 8 * byteAt B.mem B.base (B.len / 2)) * K.K2) ^^^
         (BitVec.ofNat 64 (B.len + 4 * byteAt B.mem B.base (B.len - 1)) * K.K0)) * K.K2)) ∧
    (4 ≤ B.len → B.len ≤ 8 →
      h64 K B = some (combine16 (BitVec.ofNat 64 (B.len + 8 * le32 B.mem B.base 0))
        (BitVec.ofNat 64 (le32 B.mem B.base (B.len - 4))) (K.K2 + 2 * n64 B))) ∧
    (9 ≤ B.len → B.len ≤ 16 →
      h64 K B = some (
        let mul := K.K2 + 2 * (n64 B - 8)
        let a := w64 B 0 + K.K2
        let b := w64 B (B.len - 8)
        combine16 (b.rotateRight 37 * mul + a) ((a.rotateRight 25 + b) * mul) mul))

/-- R168, R169: the buckets of hash64 from 17 to 64 bytes. -/
def Obligations.Hash64MiddleBuckets : Prop :=
  ∀ (K : Consts) (B : ByteRun),
    (17 ≤ B.len → B.len ≤ 32 →
      h64 K B = some (
        let mul := K.K2 + 2 * n64 B
        let a := w64 B 0 * K.K1
        let c := w64 B (B.len - 8) * mul
        combine16 ((a + w64 B 8).rotateRight 43 + c.rotateRight 30 + w64 B (B.len - 16) * K.K2)
          (a + (w64 B 8 + K.K2).rotateRight 18 + c) mul)) ∧
    (33 ≤ B.len → B.len ≤ 64 →
      h64 K B = some (
        let mul := K.K2 + 2 * n64 B
        let a := w64 B 0 * K.K2
        let c := w64 B (B.len - 8) * mul
        let y := (a + w64 B 8).rotateRight 43 + c.rotateRight 30 + w64 B (B.len - 16) * K.K2
        let z := combine16 y (a + (w64 B 8 + K.K2).rotateRight 18 + c) mul
        let e := w64 B 16 * mul
        let g := (y + w64 B (B.len - 32)) * mul
        combine16 ((e + w64 B 24).rotateRight 43 + g.rotateRight 30 + (z + w64 B (B.len - 24)) * mul)
          (e + (w64 B 24 + a).rotateRight 18 + g) mul))

/-- R170 to R173: the rolling loop of hash64, its chunks in order, then the tail step on the last 64 bytes and the final fold. -/
def Obligations.Hash64LongBucket : Prop :=
  ∀ (K : Consts) (B : ByteRun), 64 < B.len →
    h64 K B = some (rollEnd K (rollStep B (B.len - 64) 9 (rollTail K B.len
      ((List.range ((B.len - 1) / 64)).foldl (fun r k => rollStep B (64 * k) 1 r) (rollStart K B)))))

/-- R178: no fetch of `H64` is out of bounds, for any length, so it and its seeded forms have a value for every run. -/
def Obligations.Hash64FetchesStayInBounds : Prop :=
  ∀ (K : Consts) (B : ByteRun) (seed0 seed1 : Word),
    (∃ h, h64 K B = some h) ∧ (∃ h, h64s K B seed0 = some h) ∧ (∃ h, h64s2 K B seed0 seed1 = some h)

/-- R176: for a fixed run, different seeds give different seeded hashes (with the default KMUL, which is odd). -/
def Obligations.SeededHash64IsInjectiveInTheSeed : Prop :=
  ∀ (B : ByteRun) (s1 s2 : Word), s1 ≠ s2 →
    ∃ h1 h2, h64s consts B s1 = some h1 ∧ h64s consts B s2 = some h2 ∧ h1 ≠ h2

/-! ### hash128 -/

/-- R195 to R201: the CityMurmur procedure: the run of at most 16 bytes folded through `H64`, the longer run in 16-byte groups in order, then the
adjustment, the swap rule and the final combine. -/
def Obligations.CityMurmurProcedure : Prop :=
  ∀ (K : Consts) (B : ByteRun) (s0 s1 adj : Word),
    (B.len ≤ 16 → ∃ h, h64 K B = some h ∧
      cityMurmur K B s0 s1 adj = some (murmurEnd K adj
        (let a := shiftMix (s0 * K.K1) * K.K1
         let c := s1 * K.K1 + h
         { a := a, b := s1, c := c, d := shiftMix (a + if 8 ≤ B.len then w64 B 0 else c) }))) ∧
    (16 < B.len →
      cityMurmur K B s0 s1 adj =
        some (murmurEnd K adj ((List.range ((B.len - 16 + 15) / 16)).foldl (groupStep K B) (groupStart K B s0 s1))))

/-- R193, R194, R202 and R203: the entry points of hash128 and its long regime. -/
def Obligations.Hash128Regimes : Prop :=
  ∀ (K : Consts) (B : ByteRun) (s0 s1 : Word),
    (B.len < 16 → h128 K B = h128s K B K.K0 K.K1) ∧
    (16 ≤ B.len → h128 K B = h128s K (B.sub 16 B.len) (w64 B 0) (w64 B 8 + K.K0)) ∧
    (B.len < 128 → h128s K B s0 s1 = cityMurmur K B s0 s1 0) ∧
    (128 ≤ B.len → ∃ hh ht, h64 K (B.sub 0 16) = some hh ∧ h64 K (B.sub (B.len - 16) B.len) = some ht ∧
      h128s K B s0 s1 = cityMurmur K (B.sub 0 (B.len - 16)) (combine16 (hh + K.K0) s0 K.KMUL)
        (combine16 (ht + K.K1) s1 K.KMUL) 16)

/-- R206: no fetch of `H128` or `H128S` is out of bounds, for any length and any seed, so they have a value for every run. -/
def Obligations.Hash128FetchesStayInBounds : Prop :=
  ∀ (K : Consts) (B : ByteRun) (s0 s1 : Word), (∃ p, h128 K B = some p) ∧ (∃ p, h128s K B s0 s1 = some p)
end

