-- ==== Sys2Proof/Laws/Encoding.lean ====
section
/-! SUPPORT. The shape of an encoded word: every command word is one word of five fields, and the opcode field reads back. -/

namespace Sys2Proof

/-- The word with every operand field of R81 in its place. -/
def fieldWord (op : Nat) (rd ra rb rc : Reg) (imm6 : Nat) : Half :=
  opBits op ||| regBits rd 20 ||| regBits ra 16 ||| regBits rb 12 ||| regBits rc 8 ||| BitVec.ofNat 32 imm6

/-- An empty register field adds no bit. -/
@[simp] theorem regBits_zero (lo : Nat) : regBits 0 lo = 0 := by simp [regBits]

/-- A register number has four bits. -/
theorem reg_testBit (r : Reg) {k : Nat} (h : 4 ≤ k) : r.val.testBit k = false :=
  Nat.testBit_lt_two_pow (lt_of_lt_of_le r.isLt (Nat.pow_le_pow_right (by omega : 0 < 2) h))

/-- An immediate that fits has six bits. -/
theorem imm6_testBit {imm6 : Nat} (hi : imm6 < 64) {k : Nat} (h : 6 ≤ k) : imm6.testBit k = false :=
  Nat.testBit_lt_two_pow (lt_of_lt_of_le hi (Nat.pow_le_pow_right (by omega : 0 < 2) h))

/-- The opcode of a field word is the opcode put there. -/
theorem opcodeOf_fieldWord (op : Nat) (rd ra rb rc : Reg) {imm6 : Nat} (hi : imm6 < 64) :
    opcodeOf (fieldWord op rd ra rb rc imm6) = BitVec.ofNat 8 op := by
  apply BitVec.eq_of_getLsbD_eq
  intro k hk
  simp [opcodeOf, fieldWord, opBits, regBits, BitVec.getLsbD_ofNat]
  rw [reg_testBit rd (by omega), reg_testBit ra (by omega), reg_testBit rb (by omega), reg_testBit rc (by omega),
    imm6_testBit hi (by omega)]
  have h1 : 24 + k < 32 := by omega
  have h2 : k < 32 := by omega
  simp [hk, h1, h2]

end Sys2Proof
end

