-- ==== Sys2Proof/Laws/Memory.lean ====
section
/-! SUPPORT. The laws of memory: reading after a write, and every operation keeps the canonical form. -/

namespace Sys2Proof.Machine

/-- Below the first listed address nothing is listed. -/
theorem cellsRead_below {lo : Nat} {m : List Host.Cell} (h : cellsWf lo m = true) {a : Nat} (ha : a < lo) :
    cellsRead m a = unlistedByte := by
  induction m generalizing lo with
  | nil => rfl
  | cons cell rest ih =>
    obtain ⟨k, c⟩ := cell
    simp only [cellsWf, Bool.and_eq_true, decide_eq_true_eq] at h
    have hk : k ≠ a := by omega
    simp only [cellsRead, hk, if_false]
    exact ih h.2 (by omega)

/-- The canonical form from an address up is one from any lower address up. -/
theorem cellsWf_mono {lo lo' : Nat} {m : List Host.Cell} (h : cellsWf lo m = true) (hl : lo' ≤ lo) :
    cellsWf lo' m = true := by
  cases m with
  | nil => rfl
  | cons cell rest =>
    obtain ⟨k, c⟩ := cell
    simp only [cellsWf, Bool.and_eq_true, decide_eq_true_eq] at h ⊢
    exact ⟨⟨⟨by omega, h.1.1.2⟩, h.1.2⟩, h.2⟩

/-- A write keeps the canonical form. -/
theorem cellsWrite_wf {lo : Nat} {m : List Host.Cell} (h : cellsWf lo m = true) {a : Nat} (hlo : lo ≤ a)
    (ha : a < 2 ^ 64) (b : Byte) : cellsWf lo (cellsWrite m a b) = true := by
  induction m generalizing lo with
  | nil =>
    simp only [cellsWrite]
    split
    · rfl
    · rename_i hb
      simp [cellsWf, hlo, hb]
      omega
  | cons cell rest ih =>
    obtain ⟨k, c⟩ := cell
    simp only [cellsWf, Bool.and_eq_true, decide_eq_true_eq] at h
    obtain ⟨⟨⟨h1, h2⟩, h3⟩, h4⟩ := h
    simp only [cellsWrite]
    split
    · rename_i hk
      subst hk
      split
      · exact cellsWf_mono h4 (by omega)
      · rename_i hb
        simp [cellsWf, h1, hb, h4]
        omega
    · split
      · rename_i hlt
        split
        · simp [cellsWf, h1, h4]
          exact ⟨by omega, by simpa using h3⟩
        · rename_i hb
          simp [cellsWf, hlo, hb, h4]
          exact ⟨by omega, ⟨by omega, by omega⟩, by simpa using h3⟩
      · have := ih h4 (by omega)
        simp [cellsWf, h1, this]
        exact ⟨by omega, by simpa using h3⟩

/-- Reading a cell list after a write to it: the byte written at its address, the old byte elsewhere. -/
theorem cellsRead_write {lo : Nat} {m : List Host.Cell} (h : cellsWf lo m = true) (a b' : Nat) (b : Byte) :
    cellsRead (cellsWrite m a b) b' = if b' = a then b else cellsRead m b' := by
  induction m generalizing lo with
  | nil =>
    simp only [cellsWrite]
    by_cases e : b' = a
    · subst e
      split
      · rename_i hb; simp [hb, cellsRead]
      · simp [cellsRead]
    · have : a ≠ b' := fun x => e x.symm
      split <;> simp [this, cellsRead]
  | cons cell rest ih =>
    obtain ⟨k, c⟩ := cell
    simp only [cellsWf, Bool.and_eq_true, decide_eq_true_eq] at h
    obtain ⟨⟨⟨h1, h2⟩, h3⟩, h4⟩ := h
    have ih := ih h4
    simp only [cellsWrite]
    split
    · rename_i hk
      subst hk
      split
      · rename_i hb
        by_cases e : b' = k
        · subst e; simp [hb, cellsRead_below h4 (Nat.lt_succ_self _)]
        · have : k ≠ b' := fun x => e x.symm
          simp [e, this, cellsRead]
      · by_cases e : b' = k
        · subst e; simp [cellsRead]
        · have : k ≠ b' := fun x => e x.symm
          simp [e, this, cellsRead]
    · rename_i hk
      split
      · rename_i hlt
        split
        · rename_i hb
          by_cases e : b' = a
          · subst e
            simp [cellsRead, hk, hb, cellsRead_below h4 (show b' < k + 1 by omega)]
          · simp [e]
        · by_cases e : b' = a
          · subst e; simp [cellsRead]
          · have : a ≠ b' := fun x => e x.symm
            simp [e, this, cellsRead]
      · by_cases e : k = b'
        · subst e; simp [cellsRead, hk]
        · simp [cellsRead, e, ih]

/-- Memory reads back the byte written. -/
theorem Memory.read_write_same {m : Memory} (h : m.wf = true) (a : Word) (b : Byte) : (m.write a b).read a = b := by
  simp [Memory.read, Memory.write, cellsRead_write h]

/-- A write leaves every other address alone. -/
theorem Memory.read_write_other {m : Memory} (h : m.wf = true) {a a' : Word} (b : Byte) (ne : a' ≠ a) :
    (m.write a b).read a' = m.read a' := by
  have : a'.toNat ≠ a.toNat := fun e => ne (BitVec.eq_of_toNat_eq e)
  simp [Memory.read, Memory.write, cellsRead_write h, this]

/-- A write keeps memory's canonical form. -/
theorem Memory.write_wf {m : Memory} (h : m.wf = true) (a : Word) (b : Byte) : (m.write a b).wf = true :=
  cellsWrite_wf h (Nat.zero_le _) a.isLt b

/-- Placing bytes keeps memory's canonical form. -/
theorem memPlace_wf (bytes : List Byte) {m : Memory} (h : m.wf = true) (a : Word) : (memPlace m a bytes).wf = true := by
  induction bytes generalizing m a with
  | nil => exact h
  | cons b rest ih => exact ih (Memory.write_wf h a b) (a + 1)

/-- `MemRead` returns as many bytes as it was asked for (R50). -/
@[simp] theorem memRead_length (m : Memory) (a : Word) (k : Nat) : (memRead m a k).length = k := by
  induction k generalizing a with
  | zero => rfl
  | succ k ih => simp [memRead, ih]

end Sys2Proof.Machine
end

