-- ==== Sys2Proof/Laws/State.lean ====
section
/-! SUPPORT. One lemma per field per update of State, so that no later proof unfolds a record update; and the registers' read-after-write laws. -/

namespace Sys2Proof.Machine

variable (s : State) (r q : Reg) (v w : Word)

@[simp] theorem setReg_status : (s.setReg r v).status = s.status := rfl
@[simp] theorem setReg_bufBase : (s.setReg r v).bufBase = s.bufBase := rfl
@[simp] theorem setReg_bufLen : (s.setReg r v).bufLen = s.bufLen := rfl
@[simp] theorem setReg_finfo : (s.setReg r v).finfo = s.finfo := rfl
@[simp] theorem setReg_mem : (s.setReg r v).mem = s.mem := rfl
@[simp] theorem setReg_pending : (s.setReg r v).pending = s.pending := rfl
@[simp] theorem setReg_reads : (s.setReg r v).reads = s.reads := rfl
@[simp] theorem setReg_fault : (s.setReg r v).fault = s.fault := rfl

/-- A register reads back what was written to it. -/
@[simp] theorem reg_setReg_same : (s.setReg r v).reg r = v := by
  simp [State.reg, State.setReg, Vector.get_eq_getElem]

/-- A write leaves every other register alone. -/
theorem reg_setReg_other (h : q ≠ r) : (s.setReg r v).reg q = s.reg q := by
  have h' : r.val ≠ q.val := fun e => h (Fin.ext e.symm)
  simp [State.reg, State.setReg, Vector.get_eq_getElem, Vector.getElem_set_ne, h']

/-- Reading after a write, both cases. -/
theorem reg_setReg : (s.setReg r v).reg q = if q = r then v else s.reg q := by
  split
  · rename_i h; subst h; exact reg_setReg_same s q v
  · rename_i h; exact reg_setReg_other s r q v h

/-- The two registers of a pair are different (R255). -/
theorem pairHigh_ne : pairHigh r ≠ r := by revert r; decide

variable (p : Word × Word)

@[simp] theorem setPair_status : (s.setPair r p).status = s.status := rfl
@[simp] theorem setPair_bufBase : (s.setPair r p).bufBase = s.bufBase := rfl
@[simp] theorem setPair_bufLen : (s.setPair r p).bufLen = s.bufLen := rfl
@[simp] theorem setPair_finfo : (s.setPair r p).finfo = s.finfo := rfl
@[simp] theorem setPair_mem : (s.setPair r p).mem = s.mem := rfl
@[simp] theorem setPair_pending : (s.setPair r p).pending = s.pending := rfl
@[simp] theorem setPair_reads : (s.setPair r p).reads = s.reads := rfl
@[simp] theorem setPair_fault : (s.setPair r p).fault = s.fault := rfl

/-- The high register of a pair destination holds the second word. -/
@[simp] theorem reg_setPair_high : (s.setPair r p).reg (pairHigh r) = p.2 := by simp [State.setPair]

/-- The low register of a pair destination holds the first word. -/
@[simp] theorem reg_setPair_low : (s.setPair r p).reg r = p.1 := by
  simp [State.setPair, reg_setReg_other _ _ _ _ (pairHigh_ne r).symm]

/-- A pair write leaves every other register alone. -/
theorem reg_setPair_other (h : q ≠ r) (h' : q ≠ pairHigh r) : (s.setPair r p).reg q = s.reg q := by
  simp [State.setPair, reg_setReg_other _ _ _ _ h, reg_setReg_other _ _ _ _ h']

variable (c : Cause)

@[simp] theorem raiseFault_x : (raiseFault c v s).x = s.x := rfl
@[simp] theorem raiseFault_reg : (raiseFault c v s).reg q = s.reg q := rfl
@[simp] theorem raiseFault_status : (raiseFault c v s).status = withCause (withFault s.status) (causeCode c) := rfl
@[simp] theorem raiseFault_bufBase : (raiseFault c v s).bufBase = s.bufBase := rfl
@[simp] theorem raiseFault_bufLen : (raiseFault c v s).bufLen = s.bufLen := rfl
@[simp] theorem raiseFault_finfo : (raiseFault c v s).finfo = v := rfl
@[simp] theorem raiseFault_mem : (raiseFault c v s).mem = s.mem := rfl
@[simp] theorem raiseFault_pending : (raiseFault c v s).pending = s.pending := rfl
@[simp] theorem raiseFault_reads : (raiseFault c v s).reads = s.reads := rfl

@[simp] theorem reset_reg : State.reset.reg r = 0 := by simp [State.reset, State.reg, Vector.get_eq_getElem]
@[simp] theorem resetCore_x : (resetCore s).x = Vector.replicate 16 0 := rfl
@[simp] theorem resetCore_reg : (resetCore s).reg r = 0 := by simp [State.reg, Vector.get_eq_getElem]
@[simp] theorem resetCore_status : (resetCore s).status = 0 := rfl
@[simp] theorem resetCore_bufBase : (resetCore s).bufBase = 0 := rfl
@[simp] theorem resetCore_bufLen : (resetCore s).bufLen = 0 := rfl
@[simp] theorem resetCore_finfo : (resetCore s).finfo = 0 := rfl
@[simp] theorem resetCore_mem : (resetCore s).mem = s.mem := rfl
@[simp] theorem resetCore_pending : (resetCore s).pending = s.pending := rfl
@[simp] theorem resetCore_reads : (resetCore s).reads = s.reads := rfl

@[simp] theorem window_mem : s.window.mem = s.mem := rfl
@[simp] theorem window_base : s.window.base = s.bufBase := rfl
@[simp] theorem window_len : s.window.len = s.bufLen.toNat := rfl

@[simp] theorem withFetchWord_pending (nbits w : Nat) :
    (s.withFetchWord nbits w).pending = commandWrite (tableValue nbits w) :: s.pending := rfl
@[simp] theorem withFetchWord_x (nbits w : Nat) : (s.withFetchWord nbits w).x = s.x := rfl
@[simp] theorem withFetchWord_status (nbits w : Nat) : (s.withFetchWord nbits w).status = s.status := rfl
@[simp] theorem withFetchWord_mem (nbits w : Nat) : (s.withFetchWord nbits w).mem = s.mem := rfl

/-- A register write is framed by its register. -/
theorem setReg_writesOnly : WritesOnly [r] s (s.setReg r v) :=
  ⟨fun q h => reg_setReg_other s r q v (by simpa using h), rfl, rfl, rfl, rfl, fun _ => rfl, rfl, rfl⟩

/-- A pair write is framed by its pair. -/
theorem setPair_writesOnly : WritesOnly [r, r + 1] s (s.setPair r p) :=
  ⟨fun q h => by
    simp only [List.mem_cons, List.not_mem_nil, or_false, not_or] at h
    exact reg_setPair_other s r q p h.1 h.2, rfl, rfl, rfl, rfl, fun _ => rfl, rfl, rfl⟩

end Sys2Proof.Machine
end

