-- ==== Sys2Proof/Laws/Fetch.lean ====
section
/-! SUPPORT. One spec lemma per fetch function: when it has a value, and which. -/

namespace Sys2Proof.Machine

variable (B : ByteRun) (i w : Nat)

/-- Bytes in bounds are the bytes of memory. -/
theorem bytes_inBounds (h : i + w ≤ B.len) : B.bytes i w = some (memRead B.mem (B.addr i) w) := by
  simp [ByteRun.bytes, h]

/-- Bytes past the end have no value. -/
theorem bytes_pastEnd (h : B.len < i + w) : B.bytes i w = none := by
  have : ¬ i + w ≤ B.len := by omega
  simp [ByteRun.bytes, this]

/-- A 32-bit fetch in bounds. -/
theorem f32_inBounds (h : i + 4 ≤ B.len) :
    B.f32 i = some (BitVec.ofNat 32 (leValue (memRead B.mem (B.addr i) 4))) := by
  simp [ByteRun.f32, bytes_inBounds B i 4 h]

/-- A 64-bit fetch in bounds. -/
theorem f64_inBounds (h : i + 8 ≤ B.len) :
    B.f64 i = some (BitVec.ofNat 64 (leValue (memRead B.mem (B.addr i) 8))) := by
  simp [ByteRun.f64, bytes_inBounds B i 8 h]

/-- A 32-bit fetch past the end. -/
theorem f32_pastEnd (h : B.len < i + 4) : B.f32 i = none := by simp [ByteRun.f32, bytes_pastEnd B i 4 h]

/-- A 64-bit fetch past the end. -/
theorem f64_pastEnd (h : B.len < i + 8) : B.f64 i = none := by simp [ByteRun.f64, bytes_pastEnd B i 8 h]

/-- One byte in bounds. -/
theorem byte_inBounds (h : i < B.len) : B.byte i = some (B.mem.read (B.addr i)) := by simp [ByteRun.byte, h]

@[simp] theorem sub_mem (p q : Nat) : (B.sub p q).mem = B.mem := rfl
@[simp] theorem sub_base (p q : Nat) : (B.sub p q).base = B.addr p := rfl
@[simp] theorem sub_len (p q : Nat) : (B.sub p q).len = q - p := rfl

/-- An address inside a sub-run is an address of the enclosing run. -/
theorem sub_addr (p q : Nat) : (B.sub p q).addr i = B.addr (p + i) := by
  simp [ByteRun.addr, BitVec.ofNat_add, BitVec.add_assoc]

/-- A run of bytes is below 256 to the power of its length. -/
theorem leValue_lt (bs : List Byte) : leValue bs < 2 ^ (8 * bs.length) := by
  induction bs with
  | nil => simp [leValue]
  | cons b rest ih =>
    have hb := b.isLt
    have : 2 ^ (8 * (b :: rest).length) = 2 ^ 8 * 2 ^ (8 * rest.length) := by
      rw [← pow_add]; congr 1; simp; omega
    rw [this, leValue]
    generalize 2 ^ (8 * rest.length) = p at *
    omega

end Sys2Proof.Machine
end

