-- ==== Sys2Proof/Laws/Exec.lean ====
section
/-! SUPPORT. What the shared operations of the meanings can do, said once: how an engine's result is completed, and the three shapes a command's
next state can have. -/

namespace Sys2Proof.Machine

/-- A completed engine result: it answers next exactly with the value put. -/
theorem completeWith_next {α : Type} {result : Option α} {put : α → State} {t : State}
    (h : completeWith result put = .next t) : ∃ v, result = some v ∧ t = put v := by
  cases result with
  | none => simp [completeWith] at h
  | some v => exact ⟨v, rfl, by simpa [completeWith] using h.symm⟩

@[simp] theorem completeWith_some {α : Type} (v : α) (put : α → State) : completeWith (some v) put = .next (put v) := rfl

/-- A 32-bit fetch command: in bounds it writes its register, past the end it takes FETCH_BOUNDS. -/
theorem execFetch32_cases (rd ra : Reg) (s : State) :
    (∃ v, s.window.f32 (s.offset ra) = some v ∧ execFetch32 rd ra s = .next (s.setReg32 rd v)) ∨
    (s.window.f32 (s.offset ra) = none ∧ execFetch32 rd ra s = .next (raiseFault .fetchBounds (s.reg ra) s)) := by
  unfold execFetch32
  cases h : s.window.f32 (s.offset ra) with
  | none => exact .inr ⟨rfl, rfl⟩
  | some v => exact .inl ⟨v, rfl, rfl⟩

/-- A 64-bit fetch command: in bounds it writes its register, past the end it takes FETCH_BOUNDS. -/
theorem execFetch64_cases (rd ra : Reg) (s : State) :
    (∃ v, s.window.f64 (s.offset ra) = some v ∧ execFetch64 rd ra s = .next (s.setReg rd v)) ∨
    (s.window.f64 (s.offset ra) = none ∧ execFetch64 rd ra s = .next (raiseFault .fetchBounds (s.reg ra) s)) := by
  unfold execFetch64
  cases h : s.window.f64 (s.offset ra) with
  | none => exact .inr ⟨rfl, rfl⟩
  | some v => exact .inl ⟨v, rfl, rfl⟩

/-- A fetch command whose fetch has no value. -/
def FetchFails (i : Instr) (ra : Reg) (s : State) : Prop :=
  (∃ rd, i = .fetch32 rd ra ∧ s.window.f32 (s.offset ra) = none) ∨
  (∃ rd, i = .fetch64 rd ra ∧ s.window.f64 (s.offset ra) = none)

/-- Everything a command can do when it answers a next state: take FETCH_BOUNDS, if its fetch has no value; otherwise write one register, or
write one pair. -/
theorem exec_next_cases {i : Instr} {s t : State} (h : exec i s = .next t) :
    (∃ ra : Reg, FetchFails i ra s ∧ t = raiseFault .fetchBounds (s.reg ra) s) ∨
    (∃ rd v, destRegs i = [rd] ∧ t = s.setReg rd v) ∨ (∃ rd p, destRegs i = [rd, rd + 1] ∧ t = s.setPair rd p) := by
  cases i with
  | fetch32 rd ra =>
    obtain ⟨v, -, e⟩ | ⟨hf, e⟩ := execFetch32_cases rd ra s
    · rw [exec, e] at h; exact .inr (.inl ⟨rd, v.setWidth 64, rfl, by simpa [State.setReg32] using h.symm⟩)
    · rw [exec, e] at h; exact .inl ⟨ra, .inl ⟨rd, rfl, hf⟩, by simpa using h.symm⟩
  | fetch64 rd ra =>
    obtain ⟨v, -, e⟩ | ⟨hf, e⟩ := execFetch64_cases rd ra s
    · rw [exec, e] at h; exact .inr (.inl ⟨rd, v, rfl, by simpa using h.symm⟩)
    · rw [exec, e] at h; exact .inl ⟨ra, .inr ⟨rd, rfl, hf⟩, by simpa using h.symm⟩
  | rotr64 rd ra rb => exact .inr (.inl ⟨rd, _, rfl, by simpa [exec, execRotr64] using h.symm⟩)
  | rotr64i rd ra imm6 => exact .inr (.inl ⟨rd, _, rfl, by simpa [exec, execRotr64i] using h.symm⟩)
  | rotr32 rd ra rb => exact .inr (.inl ⟨rd, _, rfl, by simpa [exec, execRotr32, State.setReg32] using h.symm⟩)
  | rotr32i rd ra imm6 => exact .inr (.inl ⟨rd, _, rfl, by simpa [exec, execRotr32i, State.setReg32] using h.symm⟩)
  | shmix rd ra => exact .inr (.inl ⟨rd, _, rfl, by simpa [exec, execShmix] using h.symm⟩)
  | comb16 rd ra rb => exact .inr (.inl ⟨rd, _, rfl, by simpa [exec, execComb16] using h.symm⟩)
  | comb16m rd ra rb rc => exact .inr (.inl ⟨rd, _, rfl, by simpa [exec, execComb16m] using h.symm⟩)
  | wpair32 rd ra rb rc => exact .inr (.inr ⟨rd, _, rfl, by simpa [exec, execWpair32] using h.symm⟩)
  | hash32 rd =>
    obtain ⟨v, -, rfl⟩ := completeWith_next h
    exact .inr (.inl ⟨rd, v.setWidth 64, rfl, rfl⟩)
  | hash64 rd =>
    obtain ⟨v, -, rfl⟩ := completeWith_next h
    exact .inr (.inl ⟨rd, v, rfl, rfl⟩)
  | hash64s rd ra =>
    obtain ⟨v, -, rfl⟩ := completeWith_next h
    exact .inr (.inl ⟨rd, v, rfl, rfl⟩)
  | hash64s2 rd ra rb =>
    obtain ⟨v, -, rfl⟩ := completeWith_next h
    exact .inr (.inl ⟨rd, v, rfl, rfl⟩)
  | hash128 rd =>
    obtain ⟨p, -, rfl⟩ := completeWith_next h
    exact .inr (.inr ⟨rd, p, rfl, rfl⟩)
  | hash128s rd ra rb =>
    obtain ⟨p, -, rfl⟩ := completeWith_next h
    exact .inr (.inr ⟨rd, p, rfl, rfl⟩)

end Sys2Proof.Machine
end

