-- ==== Sys2Proof/Laws/PerInstr.lean ====
section
/-! SUPPORT. Statements about every instruction as syntax, one lemma per constructor. Family `EncodeOpcode`: the opcode field of an encoded command is
its row's opcode (30_encoding.md R83). -/

namespace Sys2Proof.Laws.EncodeOpcode

/-- The opcode column of R83. -/
def opcode (i : Instr) : BitVec 8 :=
  match i with
  | .fetch32 _ _ => 0x01
  | .fetch64 _ _ => 0x02
  | .rotr64 _ _ _ => 0x10
  | .rotr64i _ _ _ => 0x11
  | .rotr32 _ _ _ => 0x12
  | .rotr32i _ _ _ => 0x13
  | .shmix _ _ => 0x14
  | .comb16 _ _ _ => 0x15
  | .comb16m _ _ _ _ => 0x16
  | .wpair32 _ _ _ _ => 0x17
  | .hash32 _ => 0x20
  | .hash64 _ => 0x30
  | .hash64s _ _ => 0x31
  | .hash64s2 _ _ _ => 0x32
  | .hash128 _ => 0x40
  | .hash128s _ _ _ => 0x41

/-- The encoded word of a well-formed command has its row's opcode. -/
def Statement (i : Instr) : Prop := i.WellFormed → opcodeOf (encode i) = opcode i

theorem fetch32 (rd ra : Reg) : Statement (.fetch32 rd ra) := fun _ => by
  simpa [fieldWord, encode, opcode] using opcodeOf_fieldWord 0x01 rd ra 0 0 (imm6 := 0) (by omega)
theorem fetch64 (rd ra : Reg) : Statement (.fetch64 rd ra) := fun _ => by
  simpa [fieldWord, encode, opcode] using opcodeOf_fieldWord 0x02 rd ra 0 0 (imm6 := 0) (by omega)
theorem rotr64 (rd ra rb : Reg) : Statement (.rotr64 rd ra rb) := fun _ => by
  simpa [fieldWord, encode, opcode] using opcodeOf_fieldWord 0x10 rd ra rb 0 (imm6 := 0) (by omega)
theorem rotr64i (rd ra : Reg) (imm6 : Nat) : Statement (.rotr64i rd ra imm6) := fun h => by
  have h : imm6 < 64 := by simpa [Instr.WellFormed, Instr.wellFormed, imm6Fits] using h
  simpa [fieldWord, encode, opcode] using opcodeOf_fieldWord 0x11 rd ra 0 0 h
theorem rotr32 (rd ra rb : Reg) : Statement (.rotr32 rd ra rb) := fun _ => by
  simpa [fieldWord, encode, opcode] using opcodeOf_fieldWord 0x12 rd ra rb 0 (imm6 := 0) (by omega)
theorem rotr32i (rd ra : Reg) (imm6 : Nat) : Statement (.rotr32i rd ra imm6) := fun h => by
  have h : imm6 < 64 := by simpa [Instr.WellFormed, Instr.wellFormed, imm6Fits] using h
  simpa [fieldWord, encode, opcode] using opcodeOf_fieldWord 0x13 rd ra 0 0 h
theorem shmix (rd ra : Reg) : Statement (.shmix rd ra) := fun _ => by
  simpa [fieldWord, encode, opcode] using opcodeOf_fieldWord 0x14 rd ra 0 0 (imm6 := 0) (by omega)
theorem comb16 (rd ra rb : Reg) : Statement (.comb16 rd ra rb) := fun _ => by
  simpa [fieldWord, encode, opcode] using opcodeOf_fieldWord 0x15 rd ra rb 0 (imm6 := 0) (by omega)
theorem comb16m (rd ra rb rc : Reg) : Statement (.comb16m rd ra rb rc) := fun _ => by
  simpa [fieldWord, encode, opcode] using opcodeOf_fieldWord 0x16 rd ra rb rc (imm6 := 0) (by omega)
theorem wpair32 (rd ra rb rc : Reg) : Statement (.wpair32 rd ra rb rc) := fun _ => by
  simpa [fieldWord, encode, opcode] using opcodeOf_fieldWord 0x17 rd ra rb rc (imm6 := 0) (by omega)
theorem hash32 (rd : Reg) : Statement (.hash32 rd) := fun _ => by
  simpa [fieldWord, encode, opcode] using opcodeOf_fieldWord 0x20 rd 0 0 0 (imm6 := 0) (by omega)
theorem hash64 (rd : Reg) : Statement (.hash64 rd) := fun _ => by
  simpa [fieldWord, encode, opcode] using opcodeOf_fieldWord 0x30 rd 0 0 0 (imm6 := 0) (by omega)
theorem hash64s (rd ra : Reg) : Statement (.hash64s rd ra) := fun _ => by
  simpa [fieldWord, encode, opcode] using opcodeOf_fieldWord 0x31 rd ra 0 0 (imm6 := 0) (by omega)
theorem hash64s2 (rd ra rb : Reg) : Statement (.hash64s2 rd ra rb) := fun _ => by
  simpa [fieldWord, encode, opcode] using opcodeOf_fieldWord 0x32 rd ra rb 0 (imm6 := 0) (by omega)
theorem hash128 (rd : Reg) : Statement (.hash128 rd) := fun _ => by
  simpa [fieldWord, encode, opcode] using opcodeOf_fieldWord 0x40 rd 0 0 0 (imm6 := 0) (by omega)
theorem hash128s (rd ra rb : Reg) : Statement (.hash128s rd ra rb) := fun _ => by
  simpa [fieldWord, encode, opcode] using opcodeOf_fieldWord 0x41 rd ra rb 0 (imm6 := 0) (by omega)

end Sys2Proof.Laws.EncodeOpcode
end

