-- ==== Sys2Proof/Laws/Step.lean ====
section
/-! SUPPORT. What one step can do, said once. -/

namespace Sys2Proof.Machine

/-- With nothing pending, a step leaves the machine as it is. -/
theorem step_idle {s : State} (h : s.pending = []) : step s = .next s := by simp [step, nextTransaction, h]

/-- With a transaction pending, a step performs it on the state without it. -/
theorem step_pending {s : State} {tr : Transaction} {rest : List Transaction} (h : s.pending = tr :: rest) :
    step s = perform tr { s with pending := rest } := by simp [step, nextTransaction, h]

/-- The two things a step that answers next can have done. -/
theorem step_next_cases {s t : State} (h : step s = .next t) :
    (s.pending = [] ∧ t = s) ∨ ∃ tr rest, s.pending = tr :: rest ∧ perform tr { s with pending := rest } = .next t := by
  cases hp : s.pending with
  | nil => rw [step_idle hp] at h; exact .inl ⟨rfl, by simpa using h.symm⟩
  | cons tr rest => rw [step_pending hp] at h; exact .inr ⟨tr, rest, rfl, h⟩

/-- Everything a host write can do when it answers next: nothing (while FAULT = 1, or a read-only or unmapped number), one control register, one
operand register, or the command presented. -/
theorem hostWrite_next_cases {k : PortNum} {v : Word} {s t : State} (h : hostWrite k v s = .next t) :
    t = s ∨ (s.fault = false ∧ k.val = 2 ∧ t = { s with bufBase := v }) ∨
    (s.fault = false ∧ k.val = 3 ∧ t = { s with bufLen := v }) ∨
    (s.fault = false ∧ 16 ≤ k.val ∧ t = s.setReg (portReg k) v) ∨
    (s.fault = false ∧ k.val = 0 ∧ runCommand v s = .next t) := by
  unfold hostWrite at h
  split at h
  · exact .inl (by simpa using h.symm)
  · rename_i hf
    have hf : s.fault = false := by simpa using hf
    split at h
    · rename_i hk; exact .inr (.inr (.inr (.inr ⟨hf, hk, h⟩)))
    · split at h
      · rename_i hk; exact .inr (.inl ⟨hf, hk, by simpa using h.symm⟩)
      · split at h
        · rename_i hk; exact .inr (.inr (.inl ⟨hf, hk, by simpa using h.symm⟩))
        · split at h
          · rename_i hk; exact .inr (.inr (.inr (.inl ⟨hf, hk, by simpa using h.symm⟩)))
          · exact .inl (by simpa using h.symm)

/-- A command value either decodes and is executed, or takes ILLEGAL_CMD. -/
theorem runCommand_cases (v : Word) (s : State) :
    (∃ i, decode v = .ok i ∧ runCommand v s = exec i s) ∨
    (∃ e, decode v = .error e ∧ runCommand v s = .next (raiseFault .illegalCmd v s)) := by
  unfold runCommand
  cases h : decode v with
  | ok i => exact .inl ⟨i, rfl, rfl⟩
  | error e => exact .inr ⟨e, rfl, rfl⟩

end Sys2Proof.Machine
end

