-- ==== Sys2Proof/Tests/Slice0.lean ====
section
/-! SUPPORT. The model's own tests, and a witness for the hypotheses of every statement. Expected values are the spec's: 95_test_vectors.md
(named by its table) or the example of the rule named. -/

namespace Sys2Proof.Tests

open Sys2Proof.Machine Sys2Proof.Claims

/-! ### Helpers -/

/-- `seq(n)`: byte `i` is `i mod 256` (95_test_vectors.md). -/
def seqBytes (n : Nat) : List Byte := (List.range n).map (BitVec.ofNat 8)

/-- "hello" and "abc". -/
def hello : List Byte := [0x68, 0x65, 0x6c, 0x6c, 0x6f]
def abc : List Byte := [0x61, 0x62, 0x63]

/-- The ten bytes of T-FETCH. -/
def tFetch : List Byte := [0x01, 0x23, 0x45, 0x67, 0x89, 0xab, 0xcd, 0xef, 0x10, 0x32]

/-- The state after reset with a window of `bytes` at 0x1000 and some registers set. -/
def machine (bytes : List Byte) (regs : List (Reg × Word)) : State :=
  regs.foldl (fun s p => s.setReg p.1 p.2)
    { State.reset with mem := memPlace [] 0x1000 bytes, bufBase := 0x1000, bufLen := BitVec.ofNat 64 bytes.length }

/-- The state with the host's list of transactions. -/
def withRun (run : List Transaction) (s : State) : State := { s with pending := run }

/-- The next state holds `v` in register `r`. -/
def holds (res : Result) (r : Reg) (v : Word) : Bool :=
  match res with
  | .next t => t.reg r == v
  | .fault _ => false
  | .refused _ => false

/-- The next state satisfies `p`. -/
def nextIs (res : Result) (p : State → Bool) : Bool :=
  match res with
  | .next t => p t
  | .fault _ => false
  | .refused _ => false

/-- The next state shows a fault: its STATUS, its FINFO, and a register's old value. -/
def faultShown (res : Result) (status finfo : Word) (r : Reg) (old : Word) : Bool :=
  nextIs res (fun t => t.status == status && t.finfo == finfo && t.reg r == old)

/-- A value decodes to a command. -/
def decodesTo (v : Word) (i : Instr) : Bool :=
  match decode v with
  | .ok j => j == i
  | .error _ => false

/-- A value is rejected, by name. -/
def rejectedAs (v : Word) (e : Illegal) : Bool :=
  match decode v with
  | .ok _ => false
  | .error e' => e' == e

/-! ### Well-formedness: the check refuses each ill-formed term -/

theorem test_wellFormed_rotr64i : (Instr.rotr64i 3 1 64).wellFormed = false ∧ (Instr.rotr64i 3 1 63).wellFormed = true := by
  decide
theorem test_wellFormed_rotr32i : (Instr.rotr32i 3 1 64).wellFormed = false ∧ (Instr.rotr32i 3 1 63).wellFormed = true := by
  decide

/-! ### Decoding: one word of T-ENC for every constructor, and the illegal values of T-ENC -/

theorem test_decode_fetch32 : decodesTo 0x01310000 (.fetch32 3 1) = true := by decide
theorem test_decode_fetch64 : decodesTo 0x02310000 (.fetch64 3 1) = true := by decide
theorem test_decode_rotr64 : decodesTo 0x10312000 (.rotr64 3 1 2) = true := by decide
theorem test_decode_rotr64i : decodesTo 0x1131002F (.rotr64i 3 1 47) = true := by decide
theorem test_decode_rotr32 : decodesTo 0x12312000 (.rotr32 3 1 2) = true := by decide
theorem test_decode_rotr32i : decodesTo 0x13310013 (.rotr32i 3 1 19) = true := by decide
theorem test_decode_shmix : decodesTo 0x14310000 (.shmix 3 1) = true := by decide
theorem test_decode_comb16 : decodesTo 0x15312000 (.comb16 3 1 2) = true := by decide
theorem test_decode_comb16m : decodesTo 0x16312400 (.comb16m 3 1 2 4) = true := by decide
theorem test_decode_wpair32 : decodesTo 0x17A48900 (.wpair32 10 4 8 9) = true := by decide
theorem test_decode_hash32 : decodesTo 0x20400000 (.hash32 4) = true := by decide
theorem test_decode_hash64 : decodesTo 0x30400000 (.hash64 4) = true := by decide
theorem test_decode_hash64s : decodesTo 0x31410000 (.hash64s 4 1) = true := by decide
theorem test_decode_hash64s2 : decodesTo 0x32412000 (.hash64s2 4 1 2) = true := by decide
theorem test_decode_hash128 : decodesTo 0x40F00000 (.hash128 15) = true := by decide
theorem test_decode_hash128s : decodesTo 0x41412000 (.hash128s 4 1 2) = true := by decide

theorem test_decode_upperBits : rejectedAs 0x0000000130100000 .upperBits = true := by decide
theorem test_decode_reserved :
    [0x00000000, 0xFFFFFFFF, 0x03000000].all (fun v => rejectedAs v .reservedOpcode) = true := by decide
theorem test_decode_mustBeZero :
    [0x01311000, 0x11310040, 0x11310080, 0x20400100, 0x30400001, 0x17A48940, 0x41000F00].all
      (fun v => rejectedAs v .mustBeZero) = true := by decide

/-! ### Word fetch (T-FETCH) -/

theorem test_fetch32_unaligned : holds (exec (.fetch32 3 1) (machine tFetch [(1, 1)])) 3 0x89674523 = true := by decide
theorem test_fetch32_pastEnd :
    faultShown (exec (.fetch32 3 1) (machine tFetch [(1, 7), (3, 9)])) 0x11 7 3 9 = true := by decide
theorem test_fetch64_lastOffset :
    holds (exec (.fetch64 1 1) (machine tFetch [(1, 2)])) 1 0x3210efcdab896745 = true := by decide
theorem test_fetch64_noWrap :
    faultShown (exec (.fetch64 3 1) (machine tFetch [(1, 0xfffffffffffffff9)])) 0x11 0xfffffffffffffff9 3 0 = true := by
  decide

/-- Window wrap: a window that runs past address 2^64 - 1 continues at address 0. -/
theorem test_window_wraps :
    holds (exec (.fetch64 3 0)
      { State.reset with
        mem := memPlace [] 0xfffffffffffffffc [0xa1, 0xa2, 0xa3, 0xa4, 0xa5, 0xa6, 0xa7, 0xa8],
        bufBase := 0xfffffffffffffffc, bufLen := 8 }) 3 0xa8a7a6a5a4a3a2a1 = true := by decide

/-! ### The mixing primitives (T-ROT, T-SHMIX, T-COMB, T-WP) -/

theorem test_rotr64_reduced :
    holds (exec (.rotr64 3 1 2) (machine [] [(1, 0x0123456789abcdef), (2, 68)])) 3 0xf0123456789abcde = true := by decide
theorem test_rotr64_allAmountBits :
    holds (exec (.rotr64 3 1 2) (machine [] [(1, 0x0123456789abcdef), (2, 0x8000000000000000)])) 3 0x0123456789abcdef =
      true := by decide
theorem test_rotr64i : holds (exec (.rotr64i 3 1 47) (machine [] [(1, 0x0123456789abcdef)])) 3 0x8acf13579bde0246 = true := by
  decide
theorem test_rotr64i_zero :
    holds (exec (.rotr64i 3 1 0) (machine [] [(1, 0x0123456789abcdef)])) 3 0x0123456789abcdef = true := by decide
theorem test_rotr32_halves :
    holds (exec (.rotr32 3 1 2) (machine [] [(1, 0xffffffff89abcdef), (2, 17)])) 3 0xe6f7c4d5 = true := by decide
theorem test_rotr32_allAmountBits :
    holds (exec (.rotr32 3 1 2) (machine [] [(1, 0x89abcdef), (2, 0xffffffffffffffff)])) 3 0x13579bdf = true := by decide
theorem test_rotr32i : holds (exec (.rotr32i 3 1 19) (machine [] [(1, 0x89abcdef)])) 3 0x79bdf135 = true := by decide
theorem test_rotr32i_reduced : holds (exec (.rotr32i 3 1 33) (machine [] [(1, 0x89abcdef)])) 3 0xc4d5e6f7 = true := by decide
theorem test_shmix : holds (exec (.shmix 3 1) (machine [] [(1, 0x0123456789abcdef)])) 3 0x0123456789abcfa9 = true := by decide
theorem test_shmix_logical :
    holds (exec (.shmix 3 1) (machine [] [(1, 0xffffffffffffffff)])) 3 0xfffffffffffe0000 = true := by decide
theorem test_comb16 : holds (exec (.comb16 3 1 2) (machine [] [(1, 1), (2, 2)])) 3 0x86668a560ec835a1 = true := by decide
theorem test_comb16_oneRegister : holds (exec (.comb16 1 1 1) (machine [] [(1, 7)])) 1 0xfa6a15f00bc52049 = true := by decide
theorem test_comb16m :
    holds (exec (.comb16m 3 1 2 4) (machine [] [(1, 1), (2, 2), (4, 0x9ae16a3b2f90404f)])) 3 0xb1bb418e84ddda0b = true := by
  decide
theorem test_comb16m_one : holds (exec (.comb16m 3 1 2 4) (machine [] [(1, 1), (2, 2), (4, 1)])) 3 1 = true := by decide

/-- Register wrap: the quad of x14 and the pair of x15. -/
theorem test_wpair32_wrap :
    nextIs (exec (.wpair32 15 14 8 9) (machine [] [(14, 1), (15, 2), (0, 3), (1, 4), (8, 5), (9, 6)]))
      (fun t => t.reg 15 == 0xf && t.reg 0 == 0x0000800000b00006 && t.reg 14 == 1 && t.reg 1 == 4) = true := by decide

/-- Overlap: the pair lies inside the quad. -/
theorem test_wpair32_overlap :
    nextIs (exec (.wpair32 2 1 5 6) (machine [] [(1, 1), (2, 2), (3, 3), (4, 4), (5, 5), (6, 6)]))
      (fun t => t.reg 2 == 0xf && t.reg 3 == 0x0000800000b00006) = true := by decide

/-! ### The hash commands (T-H32, T-H64, T-H64S, T-H128) -/

theorem test_hash32_hello : holds (exec (.hash32 4) (machine hello [])) 4 0x79969366 = true := by decide
theorem test_hash32_seq41 : holds (exec (.hash32 4) (machine (seqBytes 41) [])) 4 0x7044f7ca = true := by decide +kernel
theorem test_hash64_hello : holds (exec (.hash64 4) (machine hello [])) 4 0xb48be5a931380ce8 = true := by decide
theorem test_hash64_seq129 : holds (exec (.hash64 4) (machine (seqBytes 129) [])) 4 0xce8ba3741121083e = true := by
  decide +kernel
theorem test_hash64s_hello : holds (exec (.hash64s 4 1) (machine hello [(1, 1)])) 4 0x963a177a6a5c8a09 = true := by decide
theorem test_hash64s_seq65 : holds (exec (.hash64s 1 1) (machine (seqBytes 65) [(1, 1)])) 1 0xadd34eea6c965dbf = true := by
  decide +kernel
theorem test_hash64s2_hello :
    holds (exec (.hash64s2 4 1 2) (machine hello [(1, 1), (2, 2)])) 4 0x0cca86be086a99b9 = true := by decide
theorem test_hash64s2_seq65 :
    holds (exec (.hash64s2 2 1 2) (machine (seqBytes 65) [(1, 0x9ae16a3b2f90404f), (2, 7)])) 2 0x93c522d2b6c7daf8 = true := by
  decide +kernel
theorem test_hash128_abc :
    nextIs (exec (.hash128 4) (machine abc [])) (fun t => t.reg 4 == 0x3980b2afd2126c04 && t.reg 5 == 0xa085f09013029e45) =
      true := by decide

/-- The long regime, with the swap. -/
theorem test_hash128_seq144 :
    nextIs (exec (.hash128 15) (machine (seqBytes 144) []))
      (fun t => t.reg 15 == 0x1bfb4cd38f60cdb0 && t.reg 0 == 0x845c7de6de069127) = true := by decide +kernel

/-- The destination pair is the seed pair. -/
theorem test_hash128s_hello :
    nextIs (exec (.hash128s 1 1 2) (machine hello [(1, 1), (2, 2)]))
      (fun t => t.reg 1 == 0x43b42eca5c4603b0 && t.reg 2 == 0xe402ab553eed3da1) = true := by decide
theorem test_hash128s_seq128 :
    nextIs (exec (.hash128s 4 1 2) (machine (seqBytes 128) [(1, 1), (2, 2)]))
      (fun t => t.reg 4 == 0x1d9b45b27003db42 && t.reg 5 == 0xd620a5da93b208ea) = true := by decide +kernel

/-! ### The host port, faults and reset (T-FAULT, T-ENC) -/

theorem test_read_unmapped :
    ([0, 5, 15] : List PortNum).all (fun k => hostRead k (machine hello [(0, 7), (15, 9)]) == 0) = true := by decide
theorem test_read_registers :
    (hostRead 16 (machine hello [(0, 7)]) == 7 && hostRead 3 (machine hello []) == 5 &&
      hostRead 1 (raiseFault .illegalCmd 5 State.reset) == 0x21) = true := by decide
theorem test_write_readOnly :
    ([1, 4, 5, 15] : List PortNum).all (fun k => nextIs (hostWrite k 3 (machine hello [])) (fun t => t == machine hello [])) =
      true := by decide
theorem test_illegalCmd_priority :
    faultShown (step (withRun [.write 0 0x01310001] (machine [] [(1, 5)]))) 0x21 0x01310001 1 5 = true := by decide
theorem test_faulted_ignores :
    ([0, 3, 17] : List PortNum).all (fun k =>
      nextIs (hostWrite k 5 (raiseFault .fetchBounds 0 State.reset)) (fun t => t == raiseFault .fetchBounds 0 State.reset)) =
      true := by decide
theorem test_reset_clears :
    nextIs (step (withRun [.reset] (raiseFault .illegalCmd 5 (machine hello [(3, 4)]))))
      (fun t => t == { State.reset with mem := memPlace [] 0x1000 hello }) = true := by decide

/-- R252: `HASH64 x1` right after reset hashes the empty window. -/
theorem test_first_command : holds (step (State.reset.withFetchWord 32 0x30100000)) 1 0x9ae16a3b2f90404f = true := by decide
theorem test_decodeTableWord :
    (decodeTableWord 32 0x1131002F == some (.rotr64i 3 1 47) && decodeTableWord 32 0 == none) = true := by decide

/-! ### Memory -/

/-- Writing what an unlisted address reads as removes the entry. -/
theorem test_memory_canonical : memPlace (memPlace [] 7 [1, 2, 3]) 8 [0] = [(7, 1), (9, 3)] := by decide

/-! ### The assembler (P1 of 95_test_vectors.md) -/

theorem test_parse :
    parseProgram "mem 0x1000, 01 f3\nwr BUF_LEN, 10 ; ten\nfetch64 x3, [x1]\nzext32  x8, x7".toList =
      some [.mem 0x1000 [0x01, 0xf3], .wrBufLen 10, .command (.fetch64 3 1), .zext32 8 7] := by decide +kernel
theorem test_assemble :
    assemble [.command (.comb16 7 6 4), .zext32 8 7, .wrX 1 2, .readOf .finfo] =
      [.write 0 0x15764000, .write 0 0x13870000, .write 17 2, .read 4] := by decide

/-! ### A witness for the hypotheses of each statement, clause by clause, at the boundary values -/

/-- A state of a faulted core with a run of its own. -/
def faulted (run : List Transaction) : State := withRun run (raiseFault .fetchBounds 7 (machine tFetch [(1, 7)]))

/-- A run of `n` bytes of a memory with nothing listed. -/
def emptyRun (n : Nat) : ByteRun := { mem := [], base := 0xfffffffffffffffc, len := n }

theorem witness_DecodeOfEncodeIsTheCommand :
    (Instr.rotr32i 15 0 63).WellFormed ∧ (Instr.wpair32 15 15 15 15).WellFormed := by decide

theorem witness_DecodedValueIsItsOwnEncoding : decode 0x113F003F = .ok (.rotr64i 3 15 63) := by decide

theorem witness_EachWordIsOneCommandOrIllegal :
    (∃ i, decodeWord 0x20400000 = .ok i) ∧ Admits (0x20, 0xFF0FFFFF) 0x20400000 ∧ (∀ i, decodeWord 0 ≠ .ok i) := by
  refine ⟨⟨.hash32 4, by decide⟩, by unfold Admits; decide, fun i h => ?_⟩
  rw [show decodeWord 0 = .error .reservedOpcode from by decide] at h
  exact Except.noConfusion rfl rfl (heq_of_eq h)

theorem witness_CommandWriteRunsDecodedCommand :
    (State.reset.fault = false ∧ decode 0x30100000 = .ok (.hash64 1)) ∧ decode 0x130100000 = .error .upperBits ∧
    (faulted [.write 0 0x30100000]).fault = true ∧ (faulted [.read 0]).pending = [.read 0] ∧
    decodeTableWord 32 0x30100000 = some (.hash64 1) := by decide

/-- Every register number, and the numbers of the first and the last operand register. -/
theorem witness_HostReadReturnsTheRegister :
    (∀ k : PortNum, (withRun [.read k] (machine hello [])).pending = .read k :: []) ∧
    (16 : PortNum).val = 16 + (0 : Reg).val ∧ (31 : PortNum).val = 16 + (15 : Reg).val ∧
    5 ≤ (5 : PortNum).val ∧ (15 : PortNum).val ≤ 15 := by decide

theorem witness_HostWriteReplacesTheRegister :
    (∀ k : PortNum, (withRun [.write k 9] (machine hello [])).fault = false ∧
      (withRun [.write k 9] (machine hello [])).pending = .write k 9 :: []) ∧
    (16 : PortNum).val = 16 + (0 : Reg).val ∧ (31 : PortNum).val = 16 + (15 : Reg).val ∧
    5 ≤ (5 : PortNum).val ∧ (15 : PortNum).val ≤ 15 := by decide

theorem witness_EnvironmentPlacesBytes :
    let s := withRun [.mem 0xffffffffffffffff [1, 2]] (machine hello [])
    s.mem.wf = true ∧ ([1, 2] : List Byte).length ≤ 2 ^ 64 ∧ s.pending = [.mem 0xffffffffffffffff [1, 2]] ∧
      (∀ j, j < 2 → (0x1000 : Word) ≠ 0xffffffffffffffff + BitVec.ofNat 64 j) := by decide

theorem witness_ResetPutsEveryRegisterAtItsValue : (faulted [.reset]).pending = .reset :: [] := by decide

/-- The invariant holds, and the step goes on, with no fault, after FETCH_BOUNDS and after ILLEGAL_CMD. -/
theorem witness_EveryStepKeepsTheInvariant :
    (Inv (withRun [.write 0 0x01310000] State.reset) ∧ ∃ t, step (withRun [.write 0 0x01310000] State.reset) = .next t) ∧
    Inv (faulted [.read 4]) ∧ Inv (withRun [.reset] (raiseFault .illegalCmd 5 State.reset)) := by
  refine ⟨⟨⟨rfl, .inl rfl, fun _ => rfl, fun h => absurd h (by decide), fun h => absurd h (by decide)⟩, _, rfl⟩, ?_, ?_⟩
  · exact ⟨by decide, .inr (.inl rfl), fun h => absurd h (by decide), fun _ => ⟨by decide, 1, by decide⟩,
      fun h => absurd h (by decide)⟩
  · exact ⟨rfl, .inr (.inr rfl), fun h => absurd h (by decide), fun h => absurd h (by decide),
      fun _ => ⟨.reservedOpcode, by decide⟩⟩

theorem witness_FaultEntryWritesThreeFields : State.reset.status = 0 := by decide

/-- A step with no fault, one that takes FETCH_BOUNDS and one that takes ILLEGAL_CMD, each from a state with no fault. -/
theorem witness_OnlyTwoFaultsOnlyFromCommandWrites :
    (machine hello []).status = 0 ∧ (machine hello []).finfo = 0 ∧
    nextIs (step (withRun [.write 2 9] (machine hello []))) (fun t => t.status == 0 && t.finfo == 0) = true ∧
    nextIs (step (withRun [.write 0 0x01310000] (machine hello [(1, 2)]))) (fun t => t.status == 0x11) = true ∧
    nextIs (step (withRun [.write 0 5] (machine hello []))) (fun t => t.status == 0x21) = true := by decide

/-- The first offsets past the end, and the largest offset. -/
theorem witness_FetchPastTheWindowTakesFetchBounds :
    FetchPastEnd (.fetch32 3 1) 1 (machine tFetch [(1, 7)]) ∧ FetchPastEnd (.fetch64 3 1) 1 (machine tFetch [(1, 3)]) ∧
    FetchPastEnd (.fetch32 3 1) 1 (machine tFetch [(1, 0xffffffffffffffff)]) ∧
    ¬ FetchPastEnd (.fetch32 3 1) 1 (machine tFetch [(1, 6)]) ∧
    ∃ t, exec (.fetch32 3 1) (machine tFetch [(1, 7)]) = .next t ∧ t.status ≠ (machine tFetch [(1, 7)]).status := by
  refine ⟨.inl ⟨3, rfl, by decide⟩, .inr ⟨3, rfl, by decide⟩, .inl ⟨3, rfl, by decide⟩, ?_, _, rfl, by decide⟩
  rintro (⟨rd, -, h⟩ | ⟨rd, h, -⟩)
  · exact absurd h (by decide)
  · exact Instr.noConfusion h

/-- Each of the three conditions alone, at a boundary, and a value that meets none. -/
theorem witness_IllegalValuesTakeIllegalCmd :
    State.reset.fault = false ∧ 2 ^ 32 ≤ (0x100000000 : Word).toNat ∧
    (ReservedOp (opField 0x0FFFFFFF) ∧ ReservedOp (opField 0x42000000)) ∧ MustBeZeroBroken 0x41000100 ∧
    ¬ (2 ^ 32 ≤ (0x41FFF000 : Word).toNat ∨ ReservedOp (opField 0x41FFF000) ∨ MustBeZeroBroken 0x41FFF000) := by
  unfold ReservedOp MustBeZeroBroken
  decide

/-- The example of R225: a must-be-zero bit and an offset past the end together. -/
theorem witness_DecodeChecksComeBeforeTheBound :
    State.reset.fault = false ∧ (0x01310001 : Word).toNat < 2 ^ 32 ∧ opField 0x01310001 = 0x01 ∧
    (0x01310001 : Word) &&& 0xFFFF ≠ 0 ∧ (0x01310001 : Word).toNat / 2 ^ 16 % 2 ^ 4 = (1 : Reg).val ∧
    ((machine [] [(1, 5)]).reg 1).toNat + 8 > (machine [] [(1, 5)]).bufLen.toNat := by decide

theorem witness_FaultedCoreIgnoresWrites :
    (faulted [.write 31 5]).fault = true ∧ (faulted [.write 31 5]).pending = .write 31 5 :: [] ∧
    (faulted [.read 31]).pending = .read 31 :: [] ∧
    (∀ rest', (faulted [.mem 0 [1]]).pending ≠ .reset :: rest') ∧ ∃ t, step (faulted [.mem 0 [1]]) = .next t := by
  refine ⟨by decide, by decide, by decide, fun rest' h => ?_, _, rfl⟩
  exact Transaction.noConfusion (List.cons.inj h).1

theorem witness_FaultFreezesEveryRunWithoutReset :
    (faulted [.write 0 0x30100000, .read 4, .mem 0 [1]]).fault = true ∧
    ∀ tr ∈ (faulted [.write 0 0x30100000, .read 4, .mem 0 [1]]).pending, tr ≠ .reset := by decide

theorem witness_OnlyResetClearsAFault :
    (faulted [.reset]).fault = true ∧ nextIs (step (faulted [.reset])) (fun t => !t.fault) = true := by decide

/-- A command that faults and a command that completes. -/
theorem witness_CommandsAreAllOrNothing :
    (∃ t, exec (.fetch64 3 1) (machine tFetch [(1, 3)]) = .next t) ∧ (∃ t, exec (.hash128 15) (machine hello []) = .next t) :=
  ⟨⟨_, rfl⟩, ⟨_, rfl⟩⟩

theorem witness_CoreNeverWritesMemory :
    (∀ addr bytes rest, (withRun [.write 0 0x30100000] (machine hello [])).pending ≠ .mem addr bytes :: rest) ∧
    ∃ t, step (withRun [.write 0 0x30100000] (machine hello [])) = .next t :=
  ⟨fun _ _ _ h => Transaction.noConfusion (List.cons.inj h).1, _, rfl⟩

/-- The same five bytes at another base, across the top address. -/
theorem witness_ResultsDependOnWindowBytesOnly :
    ∀ k, k < (machine hello []).bufLen.toNat →
      byteAt (memPlace [] 0xfffffffffffffffe hello) 0xfffffffffffffffe k = byteAt (machine hello []).mem 0x1000 k := by decide

/-- The last offsets in bounds and the first past the end. -/
theorem witness_FetchesAreLittleEndianSums :
    6 + 4 ≤ (emptyRun 10).len ∧ (emptyRun 10).len < 7 + 4 ∧ 2 + 8 ≤ (emptyRun 10).len ∧ (emptyRun 10).len < 3 + 8 := by decide

theorem witness_MixedWidthFetchesAgree : 2 + 8 ≤ (emptyRun 10).len := by decide

theorem witness_SubRunFetchIsFetchOfTheRun :
    32 ≤ (emptyRun 32).len ∧ 8 + 8 ≤ 32 - 16 ∧ 12 + 4 ≤ 32 - 16 := by decide

theorem witness_RotationsMoveEveryBit : 0 < 64 ∧ 63 < 64 ∧ 0 < 32 ∧ 31 < 32 := by decide

theorem witness_MixersAreBijections : consts.KMUL.toNat % 2 = 1 ∧ (1 : Word).toNat % 2 = 1 := by decide

theorem witness_Fetch32LoadsALittleEndianWord :
    ((machine tFetch [(1, 6)]).reg 1).toNat + 4 ≤ (machine tFetch [(1, 6)]).bufLen.toNat ∧
    (machine tFetch [(1, 7)]).bufLen.toNat < ((machine tFetch [(1, 7)]).reg 1).toNat + 4 := by decide

theorem witness_Fetch64LoadsALittleEndianWord :
    ((machine tFetch [(1, 2)]).reg 1).toNat + 8 ≤ (machine tFetch [(1, 2)]).bufLen.toNat ∧
    (machine tFetch [(1, 3)]).bufLen.toNat < ((machine tFetch [(1, 3)]).reg 1).toNat + 8 := by decide

theorem witness_RotateImmediates : (0 : Nat) < 64 ∧ 63 < 64 := by decide

theorem witness_ShmixFoldsTheTopBits : 17 ≤ 17 ∧ 16 ≤ 16 := by decide

/-- The bucket boundaries of hash32. -/
theorem witness_Hash32Buckets :
    (emptyRun 0).len ≤ 4 ∧ (emptyRun 4).len ≤ 4 ∧ (emptyRun 0).len = 0 ∧ 5 ≤ (emptyRun 5).len ∧ (emptyRun 12).len ≤ 12 ∧
    13 ≤ (emptyRun 13).len ∧ (emptyRun 24).len ≤ 24 ∧ 24 < (emptyRun 25).len := by decide

/-- The bucket boundaries of hash64. -/
theorem witness_Hash64Buckets :
    (emptyRun 0).len = 0 ∧ 1 ≤ (emptyRun 1).len ∧ (emptyRun 3).len ≤ 3 ∧ 4 ≤ (emptyRun 4).len ∧ (emptyRun 8).len ≤ 8 ∧
    9 ≤ (emptyRun 9).len ∧ (emptyRun 16).len ≤ 16 ∧ 17 ≤ (emptyRun 17).len ∧ (emptyRun 32).len ≤ 32 ∧
    33 ≤ (emptyRun 33).len ∧ (emptyRun 64).len ≤ 64 ∧ 64 < (emptyRun 65).len := by decide

theorem witness_SeededHash64IsInjectiveInTheSeed : (0 : Word) ≠ 0xffffffffffffffff := by decide

/-- The boundaries of the CityMurmur procedure and of the entry points of hash128. -/
theorem witness_Hash128Regimes :
    (emptyRun 16).len ≤ 16 ∧ 16 < (emptyRun 17).len ∧ (emptyRun 15).len < 16 ∧ 16 ≤ (emptyRun 16).len ∧
    (emptyRun 127).len < 128 ∧ 128 ≤ (emptyRun 128).len := by decide

end Sys2Proof.Tests
end

section
/-! PROOFS of the family 10_state: the host's command port (R29), reset (R39) and the invariant of the machine. -/

namespace Sys2Proof.Machine

open Sys2Proof.Claims

/-! ### When a fetch has no value -/

/-- A 32-bit fetch has no value exactly past the end of its run (R110). -/
theorem f32_eq_none_iff (B : ByteRun) (i : Nat) : B.f32 i = none ↔ B.len < i + 4 := by
  refine ⟨fun h => ?_, f32_pastEnd B i⟩
  by_contra hlt
  simp [f32_inBounds B i (not_lt.mp hlt)] at h

/-- A 64-bit fetch has no value exactly past the end of its run (R111). -/
theorem f64_eq_none_iff (B : ByteRun) (i : Nat) : B.f64 i = none ↔ B.len < i + 8 := by
  refine ⟨fun h => ?_, f64_pastEnd B i⟩
  by_contra hlt
  simp [f64_inBounds B i (not_lt.mp hlt)] at h

/-- The fetch of a command has no value exactly when its offset is past the end of the window (R221). -/
theorem fetchFails_iff_fetchPastEnd (i : Instr) (ra : Reg) (s : State) : FetchFails i ra s ↔ FetchPastEnd i ra s := by
  simp [FetchFails, FetchPastEnd, f32_eq_none_iff, f64_eq_none_iff, State.offset]

/-- The wider of the two fetches bounds both: an offset past the end is less than 8 bytes before the end or beyond it. -/
theorem bufLen_lt_of_fetchPastEnd {i : Instr} {ra : Reg} {s : State} (h : FetchPastEnd i ra s) :
    s.bufLen.toNat < (s.reg ra).toNat + 8 := by
  obtain ⟨_, _, h⟩ | ⟨_, _, h⟩ := h <;> omega

/-! ### Fault entry -/

/-- The ones of the mask of CAUSE stand at bits 7:4 (R30). -/
theorem getLsbD_causeMask (k : Nat) : (0xF0 : Word).getLsbD k = decide (4 ≤ k ∧ k ≤ 7) := by
  have hmask : (0xF0 : Word) = (BitVec.allOnes 4).setWidth 64 <<< 4 := by decide
  rw [hmask, BitVec.getLsbD_shiftLeft, BitVec.getLsbD_setWidth, BitVec.getLsbD_allOnes, Bool.eq_iff_iff]
  simp only [Bool.and_eq_true, Bool.not_eq_true', decide_eq_true_eq, decide_eq_false_iff_not]
  omega

/-- `withFault` sets bit 0 and keeps the others. -/
theorem getLsbD_withFault (st : Word) (k : Nat) : (withFault st).getLsbD k = (decide (k = 0) || st.getLsbD k) := by
  by_cases hk : k = 0 <;> simp [withFault, BitVec.getLsbD_one, hk]

/-- `withCause` puts the code in bits 7:4 and keeps the others. -/
theorem getLsbD_withCause (st : Word) (c : BitVec 4) (k : Nat) :
    (withCause st c).getLsbD k = if 4 ≤ k ∧ k ≤ 7 then c.getLsbD (k - 4) else st.getLsbD k := by
  rw [withCause, BitVec.getLsbD_or, BitVec.getLsbD_and, BitVec.getLsbD_not, getLsbD_causeMask]
  by_cases h : 4 ≤ k ∧ k ≤ 7
  · simp [h, show k < 64 by omega]
  · have hst : (st.getLsbD k && decide (k < 64)) = st.getLsbD k := by simpa using BitVec.lt_of_getLsbD
    by_cases h4 : k < 4
    · simp [h, h4, hst]
    · simp [h, hst, BitVec.getLsbD_of_ge c (k - 4) (by omega)]

/-- Raising a fault is fault entry as the claims say it (R226). -/
theorem raiseFault_takesFault (c : Cause) (info : Word) (s : State) :
    TakesFault (causeCode c) info s (raiseFault c info s) := by
  refine ⟨?_, ?_, rfl, fun k h0 h47 => ?_, fun _ => rfl, rfl, rfl, fun _ => rfl, rfl, rfl⟩
  · simp [getLsbD_withCause, getLsbD_withFault]
  · apply BitVec.eq_of_getLsbD_eq
    intro k hk
    simp [getLsbD_withCause, hk, show 4 + k ≤ 7 by omega]
  · simp [getLsbD_withCause, getLsbD_withFault, h0, h47]

/-! ### Commands at the host port -/

/-- A value that is a command runs it. -/
theorem runCommand_ok {v : Word} {i : Instr} (h : decode v = .ok i) (s : State) : runCommand v s = exec i s := by
  simp [runCommand, h]

/-- A value that is no command takes ILLEGAL_CMD. -/
theorem runCommand_error {v : Word} {e : Illegal} (h : decode v = .error e) (s : State) :
    runCommand v s = .next (raiseFault .illegalCmd v s) := by
  simp [runCommand, h]

/-- With FAULT = 1 a host write does nothing, whatever the number (R227). -/
theorem hostWrite_of_fault {s : State} (h : s.fault = true) (k : PortNum) (v : Word) : hostWrite k v s = .next s := by
  simp [hostWrite, h]

/-- With FAULT = 0 a write to `CMD` presents a command (R29). -/
theorem hostWrite_cmd {s : State} (h : s.fault = false) (v : Word) : hostWrite 0 v s = runCommand v s := by
  simp [hostWrite, h]

/-- `CMD` reads as 0 (R29). -/
@[simp] theorem hostRead_cmd (s : State) : hostRead 0 s = 0 := rfl

/-- A command read from a table word is the decoding of the value the host writes. -/
theorem decodeTableWord_eq_some_iff (nbits w : Nat) (i : Instr) :
    decodeTableWord nbits w = some i ↔ decode (tableValue nbits w) = .ok i := by
  unfold decodeTableWord
  cases decode (tableValue nbits w) <;> simp

/-- A step whose transaction writes `v` to `CMD` with FAULT = 0 takes `v` as a command. -/
theorem step_commandWrite {s : State} {rest : List Transaction} {v : Word} (hp : s.pending = .write 0 v :: rest)
    (hf : s.fault = false) : step s = runCommand v { s with pending := rest } :=
  (step_pending hp).trans (hostWrite_cmd (s := { s with pending := rest }) hf v)

/-- Settles O6: a step on a write to `CMD` is `runCommand` of the value, or nothing while FAULT = 1. -/
theorem commandWriteRunsDecodedCommand : Obligations.CommandWriteRunsDecodedCommand := by
  refine ⟨fun s rest v hp => ⟨fun hf i hi => ?_, fun hf e he => ?_, fun hf => ?_⟩, fun s rest hp => ?_,
    fun s nbits w i hf hi => ?_⟩
  · rw [step_commandWrite hp hf, runCommand_ok hi]
  · exact ⟨_, by rw [step_commandWrite hp hf, runCommand_error he], raiseFault_takesFault .illegalCmd v _⟩
  · rw [step_pending hp]
    exact hostWrite_of_fault (s := { s with pending := rest }) hf 0 v
  · rw [step_pending hp]
    simp [perform]
  · rw [decodeTableWord_eq_some_iff] at hi
    rw [step_commandWrite (withFetchWord_pending s nbits w) hf, runCommand_ok hi]
    rfl

/-! ### Reset -/

/-- Settles O11: the reset transaction is `resetCore`, whose fields are those of `State.reset` with memory kept. -/
theorem resetPutsEveryRegisterAtItsValue : Obligations.ResetPutsEveryRegisterAtItsValue := by
  refine ⟨fun s rest hp => ?_, reset_reg, rfl, rfl, rfl, rfl⟩
  exact ⟨resetCore { s with pending := rest }, step_pending hp, resetCore_reg _, rfl, rfl, rfl, rfl, rfl⟩

/-! ### The invariant -/

/-- With no fault the invariant asks for canonical memory and FINFO 0 only. -/
theorem inv_of_noFault {s : State} (hmem : s.mem.wf = true) (hst : s.status = 0) (hfi : s.finfo = 0) : Inv s := by
  simp [Inv, LegalStatus, hmem, hst, hfi]

/-- In a state with the invariant FAULT = 0 is `STATUS` = 0 (R30), and FINFO is 0 then (R33). -/
theorem Inv.noFault {s : State} (h : Inv s) (hf : s.fault = false) : s.status = 0 ∧ s.finfo = 0 := by
  obtain ⟨-, hst | hst | hst, hfi, -, -⟩ := h
  · exact ⟨hst, hfi hst⟩
  all_goals simp [State.fault, faultOf, hst] at hf

/-- The invariant asks for memory in canonical form. -/
theorem Inv.mem_wf {s : State} (h : Inv s) : s.mem.wf = true := h.1

/-- With no fault the invariant does not look at the registers or the window: any change to them keeps it. -/
theorem Inv.of_noFault {s t : State} (h : Inv s) (hf : s.fault = false) (hmem : t.mem = s.mem)
    (hst : t.status = s.status) (hfi : t.finfo = s.finfo) : Inv t := by
  obtain ⟨hst0, hfi0⟩ := h.noFault hf
  exact inv_of_noFault (hmem ▸ h.mem_wf) (hst.trans hst0) (hfi.trans hfi0)

/-- The invariant speaks of CORE and of memory's form only: bytes of memory and the host's lists may change. -/
theorem Inv.of_sameCore {s t : State} (h : Inv s) (hc : SameCore s t) (hmem : t.mem.wf = true) : Inv t := by
  obtain ⟨-, h⟩ := h
  obtain ⟨hx, hst, -, hlen, hfi⟩ := hc
  refine ⟨hmem, ?_⟩
  simpa only [State.reg, hx, hst, hlen, hfi] using h

/-- Taking FETCH_BOUNDS at an offset past the end of the window: the register of the offset still shows it. -/
theorem inv_raise_fetchBounds {s : State} {ra : Reg} (hmem : s.mem.wf = true) (hst : s.status = 0)
    (hoff : s.bufLen.toNat < (s.reg ra).toNat + 8) : Inv (raiseFault .fetchBounds (s.reg ra) s) := by
  have hst' : (raiseFault .fetchBounds (s.reg ra) s).status = 0x11 := by rw [raiseFault_status, hst]; decide
  simp only [Inv, hst']
  exact ⟨hmem, .inr (.inl rfl), nofun, fun _ => ⟨hoff, ra, rfl⟩, nofun⟩

/-- Taking ILLEGAL_CMD on a value that is no command. -/
theorem inv_raise_illegalCmd {s : State} {v : Word} {e : Illegal} (hmem : s.mem.wf = true) (hst : s.status = 0)
    (he : decode v = .error e) : Inv (raiseFault .illegalCmd v s) := by
  have hst' : (raiseFault .illegalCmd v s).status = 0x21 := by rw [raiseFault_status, hst]; decide
  simp only [Inv, hst']
  exact ⟨hmem, .inr (.inr rfl), nofun, nofun, fun _ => ⟨e, he⟩⟩

/-- Every command, executed with no fault, keeps the invariant: it writes registers, or takes FETCH_BOUNDS. -/
theorem exec_keeps_inv {i : Instr} {s t : State} (hi : Inv s) (hf : s.fault = false) (h : exec i s = .next t) : Inv t := by
  obtain ⟨ra, hfail, rfl⟩ | ⟨rd, v, -, rfl⟩ | ⟨rd, p, -, rfl⟩ := exec_next_cases h
  · have hpast : FetchPastEnd i ra s := (fetchFails_iff_fetchPastEnd i ra s).mp hfail
    exact inv_raise_fetchBounds hi.mem_wf (hi.noFault hf).1 (bufLen_lt_of_fetchPastEnd hpast)
  · exact hi.of_noFault hf rfl rfl rfl
  · exact hi.of_noFault hf rfl rfl rfl

/-- A value presented as a command with no fault keeps the invariant. -/
theorem runCommand_keeps_inv {v : Word} {s t : State} (hi : Inv s) (hf : s.fault = false)
    (h : runCommand v s = .next t) : Inv t := by
  obtain ⟨i, -, hrun⟩ | ⟨e, he, hrun⟩ := runCommand_cases v s
  · exact exec_keeps_inv hi hf (hrun ▸ h)
  · obtain rfl : raiseFault .illegalCmd v s = t := by simpa [hrun] using h
    exact inv_raise_illegalCmd hi.mem_wf (hi.noFault hf).1 he

/-- A host write keeps the invariant: only with no fault does it change anything. -/
theorem hostWrite_keeps_inv {k : PortNum} {v : Word} {s t : State} (hi : Inv s) (h : hostWrite k v s = .next t) :
    Inv t := by
  obtain rfl | ⟨hf, -, rfl⟩ | ⟨hf, -, rfl⟩ | ⟨hf, -, rfl⟩ | ⟨hf, -, hrun⟩ := hostWrite_next_cases h
  · exact hi
  · exact hi.of_noFault hf rfl rfl rfl
  · exact hi.of_noFault hf rfl rfl rfl
  · exact hi.of_noFault hf rfl rfl rfl
  · exact runCommand_keeps_inv hi hf hrun

/-- Every transaction keeps the invariant. -/
theorem perform_keeps_inv {tr : Transaction} {s t : State} (hi : Inv s) (h : perform tr s = .next t) : Inv t := by
  cases tr with
  | reset =>
    obtain rfl : resetCore s = t := by simpa [perform] using h
    exact inv_of_noFault hi.mem_wf rfl rfl
  | read k =>
    obtain rfl : { s with reads := s.reads ++ [hostRead k s] } = t := by simpa [perform] using h
    exact hi.of_sameCore ⟨rfl, rfl, rfl, rfl, rfl⟩ hi.mem_wf
  | write k v => exact hostWrite_keeps_inv hi h
  | mem addr bytes =>
    obtain rfl : { s with mem := memPlace s.mem addr bytes } = t := by simpa [perform] using h
    exact hi.of_sameCore ⟨rfl, rfl, rfl, rfl, rfl⟩ (memPlace_wf bytes hi.mem_wf addr)

/-- Settles O12: reset is a state with no fault and empty memory. -/
theorem invariantHoldsAtReset : Obligations.InvariantHoldsAtReset := inv_of_noFault rfl rfl rfl

/-- Settles O13: an idle step changes nothing, and the transaction of any other step keeps the invariant. -/
theorem everyStepKeepsTheInvariant : Obligations.EveryStepKeepsTheInvariant := by
  intro s t hi h
  obtain ⟨-, rfl⟩ | ⟨tr, rest, -, hperf⟩ := step_next_cases h
  · exact hi
  · have hi' : Inv { s with pending := rest } := hi.of_sameCore ⟨rfl, rfl, rfl, rfl, rfl⟩ hi.mem_wf
    exact perform_keeps_inv hi' hperf

end Sys2Proof.Machine
end

section
/-! PROOFS of the family 20_memory: a mixed-width access sees the same bytes (R54), a host read (R60), CORE never writes memory (R59). -/

namespace Sys2Proof.Machine

open Sys2Proof.Claims

/-! ### Bytes in a row -/

/-- `MemRead` in two parts: the second goes on where the first ends (R50). -/
theorem memRead_add (m : Memory) (a : Word) (j k : Nat) :
    memRead m a (j + k) = memRead m a j ++ memRead m (a + BitVec.ofNat 64 j) k := by
  induction j generalizing a with
  | zero => simp [memRead]
  | succ j ih =>
    have haddr : a + 1 + BitVec.ofNat 64 j = a + BitVec.ofNat 64 (j + 1) := by
      rw [BitVec.add_assoc, Nat.add_comm j 1, BitVec.ofNat_add]
      rfl
    rw [Nat.add_right_comm, memRead, ih, haddr]
    rfl

/-- In little-endian order the bytes that come later weigh more, by 256 for each byte before them (R52). -/
theorem leValue_append (bs cs : List Byte) : leValue (bs ++ cs) = leValue bs + 2 ^ (8 * bs.length) * leValue cs := by
  induction bs with
  | nil => simp [leValue]
  | cons b rest ih =>
    rw [List.cons_append, leValue, leValue, ih, List.length_cons, Nat.mul_succ, Nat.pow_add]
    ring

/-- The little-endian value of `k` bytes of memory fits in `8 * k` bits. -/
theorem leValue_memRead_lt (m : Memory) (a : Word) (k : Nat) : leValue (memRead m a k) < 2 ^ (8 * k) := by
  simpa using leValue_lt (memRead m a k)

/-- The least significant byte of a little-endian value is the first (R52). -/
theorem leValue_memRead_mod (m : Memory) (a : Word) (k : Nat) :
    leValue (memRead m a (k + 1)) % 2 ^ 8 = (m.read a).toNat := by
  rw [memRead, leValue, Nat.add_mul_mod_self_left, Nat.mod_eq_of_lt (m.read a).isLt]

/-- Consecutive offsets of a run have consecutive addresses (R51). -/
theorem addr_add (B : ByteRun) (i j : Nat) : B.addr (i + j) = B.addr i + BitVec.ofNat 64 j := by
  simp [ByteRun.addr, BitVec.ofNat_add, BitVec.add_assoc]

/-- Settles O26: eight bytes are four and the next four, and a little-endian value splits at any byte. -/
theorem mixedWidthFetchesAgree : Obligations.MixedWidthFetchesAgree := by
  intro B i hi
  refine ⟨_, _, _, _, f32_inBounds B i (by omega), f32_inBounds B (i + 4) (by omega), f64_inBounds B i hi,
    byte_inBounds B i (by omega), ?_, ?_⟩
  · have hlo := leValue_memRead_lt B.mem (B.addr i) 4
    have hhi := leValue_memRead_lt B.mem (B.addr (i + 4)) 4
    have hsplit : leValue (memRead B.mem (B.addr i) 8) =
        leValue (memRead B.mem (B.addr i) 4) + 2 ^ 32 * leValue (memRead B.mem (B.addr (i + 4)) 4) := by
      rw [memRead_add B.mem (B.addr i) 4 4, leValue_append, memRead_length, addr_add]
    rw [hsplit]
    simp only [BitVec.toNat_ofNat]
    omega
  · apply BitVec.eq_of_toNat_eq
    rw [BitVec.extractLsb'_toNat, BitVec.toNat_ofNat, Nat.shiftRight_zero,
      Nat.mod_eq_of_lt (leValue_memRead_lt B.mem (B.addr i) 4), leValue_memRead_mod]

/-! ### A host read -/

/-- A read of `STATUS` shows FAULT and CAUSE, and 0 for the reserved bits (R30). -/
theorem getLsbD_readableStatus (st : Word) (j : Nat) :
    (readableStatus st).getLsbD j = (st.getLsbD j && (decide (j = 0) || decide (4 ≤ j ∧ j ≤ 7))) := by
  have hmask : (0xF1 : Word) = withFault 0xF0 := by decide
  rw [readableStatus, hmask, BitVec.getLsbD_and, getLsbD_withFault, getLsbD_causeMask]

/-- Number `16 + r` reads operand register `r` (R60). -/
theorem hostRead_operand {k : PortNum} {r : Reg} (hk : k.val = 16 + r.val) (s : State) : hostRead k s = s.reg r := by
  have hr : portReg k = r := Fin.ext (by simp [portReg, hk])
  simp (disch := omega) only [hostRead, if_neg, if_pos, hr]

/-- `CMD` and the unmapped numbers read as 0 (R29, R34). -/
theorem hostRead_zero {k : PortNum} (hk : k.val = 0 ∨ (5 ≤ k.val ∧ k.val ≤ 15)) (s : State) : hostRead k s = 0 := by
  simp (disch := omega) only [hostRead, if_neg]

/-- Settles O7: the step appends `hostRead`, which answers by the number alone. -/
theorem hostReadReturnsTheRegister : Obligations.HostReadReturnsTheRegister := by
  intro s k rest hp
  refine ⟨hostRead k s, step_pending hp, fun hk j => ?_, fun hk => ?_, fun hk => ?_, fun hk => ?_,
    fun r hk => hostRead_operand hk s, fun hk => hostRead_zero hk s⟩
  · have hread : hostRead k s = readableStatus s.status := by simp [hostRead, hk]
    rw [hread, getLsbD_readableStatus]
  all_goals simp [hostRead, hk]

/-! ### Who writes memory -/

/-- No command changes memory (R59). -/
theorem exec_mem {i : Instr} {s t : State} (h : exec i s = .next t) : t.mem = s.mem := by
  obtain ⟨_, -, rfl⟩ | ⟨_, _, -, rfl⟩ | ⟨_, _, -, rfl⟩ := exec_next_cases h <;> rfl

/-- No value presented as a command changes memory. -/
theorem runCommand_mem {v : Word} {s t : State} (h : runCommand v s = .next t) : t.mem = s.mem := by
  obtain ⟨i, -, hrun⟩ | ⟨e, -, hrun⟩ := runCommand_cases v s
  · exact exec_mem (hrun ▸ h)
  · obtain rfl : raiseFault .illegalCmd v s = t := by simpa [hrun] using h
    rfl

/-- No host write changes memory. -/
theorem hostWrite_mem {k : PortNum} {v : Word} {s t : State} (h : hostWrite k v s = .next t) : t.mem = s.mem := by
  obtain rfl | ⟨-, -, rfl⟩ | ⟨-, -, rfl⟩ | ⟨-, -, rfl⟩ | ⟨-, -, hrun⟩ := hostWrite_next_cases h
  case inr.inr.inr.inr => exact runCommand_mem hrun
  all_goals rfl

/-- The one transaction that changes memory is the environment's `mem` action (R59, R92). -/
theorem perform_mem {tr : Transaction} {s t : State} (htr : ∀ addr bytes, tr ≠ .mem addr bytes)
    (h : perform tr s = .next t) : t.mem = s.mem := by
  cases tr with
  | reset =>
    obtain rfl : resetCore s = t := by simpa [perform] using h
    rfl
  | read k =>
    obtain rfl : { s with reads := s.reads ++ [hostRead k s] } = t := by simpa [perform] using h
    rfl
  | write k v => exact hostWrite_mem h
  | mem addr bytes => exact absurd rfl (htr addr bytes)

/-- Settles O23: an idle step changes nothing, and of the transactions only `mem` changes memory. -/
theorem coreNeverWritesMemory : Obligations.CoreNeverWritesMemory := by
  intro s t hnot h
  obtain ⟨-, rfl⟩ | ⟨tr, rest, hp, hperf⟩ := step_next_cases h
  · rfl
  · have htr : ∀ addr bytes, tr ≠ .mem addr bytes := fun addr bytes e => hnot addr bytes rest (e ▸ hp)
    calc t.mem = { s with pending := rest }.mem := perform_mem htr hperf
      _ = s.mem := rfl

end Sys2Proof.Machine
end

section
/-! PROOFS of the family 20_memory: every engine has a value for every run (R152, R178, R206). Each lemma of a bucket says how long the run must
be for its fetches to be in bounds. -/

namespace Sys2Proof.Machine

variable (K : Consts) (B : ByteRun)

/-! ### hash32 -/

/-- The byte loop reads the next `left` bytes (R145). -/
theorem h32Bytes_exists {left i : Nat} (h : i + left ≤ B.len) (b c : Half) : ∃ r, h32Bytes K B left i b c = some r := by
  induction left generalizing i b c with
  | zero => exact ⟨_, rfl⟩
  | succ left ih =>
    rw [h32Bytes, byte_inBounds B i (by omega)]
    exact ih (by omega) _ _

theorem h32Len0to4_exists : ∃ v, h32Len0to4 K B = some v := by
  obtain ⟨r, hr⟩ := h32Bytes_exists K B (left := B.len) (i := 0) (by omega) 0 9
  simp only [h32Len0to4, hr]
  exact ⟨_, rfl⟩

/-- The third fetch of the bucket `5 <= n <= 12` stands at 0 or 4, and ends inside the run (R146). -/
theorem midOffset_add_four_le {n : Nat} (h5 : 5 ≤ n) (h12 : n ≤ 12) : ((n >>> 1) &&& 4) + 4 ≤ n := by
  interval_cases n <;> decide

theorem h32Len5to12_exists (h5 : 5 ≤ B.len) (h12 : B.len ≤ 12) : ∃ v, h32Len5to12 K B = some v := by
  have hmid := f32_inBounds B _ (midOffset_add_four_le h5 h12)
  simp (disch := omega) only [h32Len5to12, hmid, f32_inBounds]
  exact ⟨_, rfl⟩

theorem h32Len13to24_exists (h13 : 13 ≤ B.len) : ∃ v, h32Len13to24 K B = some v := by
  simp (disch := omega) only [h32Len13to24, f32_inBounds]
  exact ⟨_, rfl⟩

theorem h32Start_exists (h : 20 ≤ B.len) : ∃ r, h32Start K B = some r := by
  simp (disch := omega) only [h32Start, f32_inBounds]
  exact ⟨_, rfl⟩

theorem h32Pass_exists {p : Nat} (h : p + 20 ≤ B.len) (r : H32Regs) : ∃ r', h32Pass K B p r = some r' := by
  simp (disch := omega) only [h32Pass, f32_inBounds]
  exact ⟨_, rfl⟩

theorem h32Loop_exists {left p : Nat} (h : p + 20 * left ≤ B.len) (r : H32Regs) :
    ∃ r', h32Loop K B left p r = some r' := by
  induction left generalizing p r with
  | zero => exact ⟨_, rfl⟩
  | succ left ih =>
    obtain ⟨r', hr'⟩ := h32Pass_exists K B (p := p) (by omega) r
    rw [h32Loop, hr']
    exact ih (by omega) r'

theorem h32Over24_exists (h : 24 < B.len) : ∃ v, h32Over24 K B = some v := by
  obtain ⟨r, hr⟩ := h32Start_exists K B (by omega)
  obtain ⟨r', hr'⟩ := h32Loop_exists K B (left := (B.len - 1) / 20) (p := 0) (by omega) r
  simp [h32Over24, hr, hr']

/-- `H32` has a value for every run (R152). -/
theorem h32_exists : ∃ v, h32 K B = some v := by
  unfold h32
  split_ifs
  · exact h32Len0to4_exists K B
  · exact h32Len5to12_exists K B (by omega) (by omega)
  · exact h32Len13to24_exists K B (by omega)
  · exact h32Over24_exists K B (by omega)

/-! ### hash64 -/

theorem h64Len1to3_exists (h : 1 ≤ B.len) : ∃ v, h64Len1to3 K B = some v := by
  simp (disch := omega) only [h64Len1to3, byte_inBounds]
  exact ⟨_, rfl⟩

theorem h64Len4to8_exists (h : 4 ≤ B.len) : ∃ v, h64Len4to8 K B = some v := by
  simp (disch := omega) only [h64Len4to8, f32_inBounds]
  exact ⟨_, rfl⟩

theorem h64Len9to16_exists (h : 8 ≤ B.len) : ∃ v, h64Len9to16 K B = some v := by
  simp (disch := omega) only [h64Len9to16, f64_inBounds]
  exact ⟨_, rfl⟩

theorem h64Len17to32_exists (h : 16 ≤ B.len) : ∃ v, h64Len17to32 K B = some v := by
  simp (disch := omega) only [h64Len17to32, f64_inBounds]
  exact ⟨_, rfl⟩

theorem h64Len33to64_exists (h : 32 ≤ B.len) : ∃ v, h64Len33to64 K B = some v := by
  simp (disch := omega) only [h64Len33to64, f64_inBounds]
  exact ⟨_, rfl⟩

theorem h64Start_exists (h : 8 ≤ B.len) : ∃ r, h64Start K B = some r := by
  simp (disch := omega) only [h64Start, f64_inBounds]
  exact ⟨_, rfl⟩

theorem h64Rnd_exists {p : Nat} (h : p + 64 ≤ B.len) (m9 : Word) (r : H64Regs) : ∃ r', h64Rnd B p m9 r = some r' := by
  simp (disch := omega) only [h64Rnd, f64_inBounds]
  exact ⟨_, rfl⟩

theorem h64Loop_exists {left p : Nat} (h : p + 64 * left ≤ B.len) (r : H64Regs) :
    ∃ r', h64Loop B left p r = some r' := by
  induction left generalizing p r with
  | zero => exact ⟨_, rfl⟩
  | succ left ih =>
    obtain ⟨r', hr'⟩ := h64Rnd_exists B (p := p) (by omega) 1 r
    rw [h64Loop, hr']
    exact ih (by omega) r'

theorem h64Over64_exists (h : 64 < B.len) : ∃ v, h64Over64 K B = some v := by
  obtain ⟨r, hr⟩ := h64Start_exists K B (by omega)
  obtain ⟨r', hr'⟩ := h64Loop_exists B (left := (B.len - 1) / 64) (p := 0) (by omega) r
  obtain ⟨r'', hr''⟩ := h64Rnd_exists B (p := B.len - 64) (by omega) 9 (h64Fold K B.len r')
  simp only [h64Over64, hr, hr', hr'', Option.bind_eq_bind, Option.bind_some]
  exact ⟨_, rfl⟩

/-- `H64` has a value for every run (R178). -/
theorem h64_exists : ∃ v, h64 K B = some v := by
  unfold h64
  split_ifs
  · exact ⟨_, rfl⟩
  · exact h64Len1to3_exists K B (by omega)
  · exact h64Len4to8_exists K B (by omega)
  · exact h64Len9to16_exists K B (by omega)
  · exact h64Len17to32_exists K B (by omega)
  · exact h64Len33to64_exists K B (by omega)
  · exact h64Over64_exists K B (by omega)

/-- `H64S` has a value for every run and seed (R178). -/
theorem h64s_exists (seed : Word) : ∃ v, h64s K B seed = some v := by
  obtain ⟨v, hv⟩ := h64_exists K B
  simp [h64s, hv]

/-- `H64S2` has a value for every run and seeds (R178). -/
theorem h64s2_exists (seed0 seed1 : Word) : ∃ v, h64s2 K B seed0 seed1 = some v := by
  obtain ⟨v, hv⟩ := h64_exists K B
  simp [h64s2, hv]

/-! ### hash128 -/

theorem cmShortRun_exists (s0 s1 : Word) : ∃ r, cmShortRun K B s0 s1 = some r := by
  obtain ⟨v, hv⟩ := h64_exists K B
  by_cases h8 : 8 ≤ B.len
  · simp [cmShortRun, hv, h8, f64_inBounds B 0 (by omega)]
  · simp [cmShortRun, hv, h8]

theorem cmStart_exists (h : 16 ≤ B.len) (s0 s1 : Word) : ∃ r, cmStart K B s0 s1 = some r := by
  simp (disch := omega) only [cmStart, f64_inBounds]
  exact ⟨_, rfl⟩

theorem cmGroup_exists {p : Nat} (h : p + 16 ≤ B.len) (r : CMRegs) : ∃ r', cmGroup K B p r = some r' := by
  simp (disch := omega) only [cmGroup, f64_inBounds]
  exact ⟨_, rfl⟩

theorem cmLoop_exists {left p : Nat} (h : p + 16 * left ≤ B.len) (r : CMRegs) :
    ∃ r', cmLoop K B left p r = some r' := by
  induction left generalizing p r with
  | zero => exact ⟨_, rfl⟩
  | succ left ih =>
    obtain ⟨r', hr'⟩ := cmGroup_exists K B (p := p) (by omega) r
    rw [cmLoop, hr']
    exact ih (by omega) r'

theorem cmMix_exists (s0 s1 : Word) : ∃ r, cmMix K B s0 s1 = some r := by
  unfold cmMix
  split_ifs with h16
  · exact cmShortRun_exists K B s0 s1
  · obtain ⟨r, hr⟩ := cmStart_exists K B (by omega) s0 s1
    rw [hr]
    exact cmLoop_exists K B (by unfold cmGroups; omega) r

/-- CityMurmur has a value for every run (R206). -/
theorem cityMurmur_exists (s0 s1 adj : Word) : ∃ p, cityMurmur K B s0 s1 adj = some p := by
  obtain ⟨r, hr⟩ := cmMix_exists K B s0 s1
  simp [cityMurmur, hr]

/-- `H128S` has a value for every run and seed (R206). -/
theorem h128s_exists (s0 s1 : Word) : ∃ p, h128s K B s0 s1 = some p := by
  unfold h128s
  split_ifs
  · exact cityMurmur_exists K B s0 s1 0
  · obtain ⟨hh, hhh⟩ := h64_exists K (B.sub 0 16)
    obtain ⟨ht, hht⟩ := h64_exists K (B.sub (B.len - 16) B.len)
    rw [h128Long, hhh, hht]
    exact cityMurmur_exists K _ _ _ 16

/-- `H128` has a value for every run (R206). -/
theorem h128_exists : ∃ p, h128 K B = some p := by
  unfold h128
  split_ifs
  · exact h128s_exists K B K.K0 K.K1
  · simp (disch := omega) only [f64_inBounds]
    exact h128s_exists K _ _ _

end Sys2Proof.Machine
end

section
/-! PROOFS of the family 20_memory: a command's result depends on the bytes of its window alone (R57, R36). -/

namespace Sys2Proof.Machine

open Sys2Proof.Claims

/-! ### Runs with the same bytes -/

/-- Two runs that hold the same bytes, in whatever memory and from whatever address up. -/
structure ByteRun.SameBytes (B C : ByteRun) : Prop where
  len_eq : B.len = C.len
  read_eq : ∀ i, i < C.len → B.mem.read (B.addr i) = C.mem.read (C.addr i)

/-- `MemRead` is the reads of the addresses from `a` up (R50). -/
theorem memRead_eq_map (m : Memory) (a : Word) (k : Nat) :
    memRead m a k = (List.range k).map (fun j => m.read (a + BitVec.ofNat 64 j)) := by
  induction k with
  | zero => rfl
  | succ k ih => rw [memRead_add, ih, List.range_succ, List.map_append]; rfl

section
variable {B C : ByteRun} (h : B.SameBytes C)
include h

theorem ByteRun.SameBytes.byte_eq (i : Nat) : B.byte i = C.byte i := by
  unfold ByteRun.byte
  rw [h.len_eq]
  split_ifs with hi
  · rw [h.read_eq i hi]
  · rfl

theorem ByteRun.SameBytes.bytes_eq (i w : Nat) : B.bytes i w = C.bytes i w := by
  unfold ByteRun.bytes
  rw [h.len_eq]
  split_ifs with hi
  · rw [memRead_eq_map, memRead_eq_map]
    congr 1
    refine List.map_congr_left fun j hj => ?_
    rw [← addr_add, ← addr_add, h.read_eq (i + j) (by have := List.mem_range.mp hj; omega)]
  · rfl

theorem ByteRun.SameBytes.f32_eq (i : Nat) : B.f32 i = C.f32 i := by rw [ByteRun.f32, h.bytes_eq, ByteRun.f32]

theorem ByteRun.SameBytes.f64_eq (i : Nat) : B.f64 i = C.f64 i := by rw [ByteRun.f64, h.bytes_eq, ByteRun.f64]

/-- A sub-run inside the run reads no byte outside it (R116). -/
theorem ByteRun.SameBytes.sub {p q : Nat} (hq : q ≤ C.len) : (B.sub p q).SameBytes (C.sub p q) where
  len_eq := rfl
  read_eq i hi := by
    rw [sub_len] at hi
    rw [sub_addr, sub_addr]
    exact h.read_eq (p + i) (by omega)

/-! ### The engines see a run through its length and its fetches only -/

variable (K : Consts)

theorem ByteRun.SameBytes.h32Bytes_eq (left i : Nat) (b c : Half) : h32Bytes K B left i b c = h32Bytes K C left i b c := by
  induction left generalizing i b c with
  | zero => rfl
  | succ left ih => simp only [h32Bytes, h.byte_eq, ih]

theorem ByteRun.SameBytes.h32Loop_eq (left p : Nat) (r : H32Regs) : h32Loop K B left p r = h32Loop K C left p r := by
  induction left generalizing p r with
  | zero => rfl
  | succ left ih => simp only [h32Loop, h32Pass, h.f32_eq, ih]

/-- `H32` is a function of the bytes of its run. -/
theorem ByteRun.SameBytes.h32_eq : h32 K B = h32 K C := by
  simp only [h32, h32Len0to4, h32Len5to12, h32Len13to24, h32Over24, h32Start, h.len_eq, h.f32_eq, h.h32Bytes_eq,
    h.h32Loop_eq]

theorem ByteRun.SameBytes.h64Rnd_eq (p : Nat) (m9 : Word) (r : H64Regs) : h64Rnd B p m9 r = h64Rnd C p m9 r := by
  simp only [h64Rnd, h.f64_eq]

theorem ByteRun.SameBytes.h64Loop_eq (left p : Nat) (r : H64Regs) : h64Loop B left p r = h64Loop C left p r := by
  induction left generalizing p r with
  | zero => rfl
  | succ left ih => simp only [h64Loop, h.h64Rnd_eq, ih]

theorem ByteRun.SameBytes.h64Over64_eq : h64Over64 K B = h64Over64 K C := by
  simp only [h64Over64, h64Start, h.len_eq, h.f64_eq, h.h64Rnd_eq, h.h64Loop_eq]

/-- `H64` is a function of the bytes of its run. -/
theorem ByteRun.SameBytes.h64_eq : h64 K B = h64 K C := by
  simp only [h64, h64Len1to3, h64Len4to8, h64Len9to16, h64Len17to32, h64Len33to64, h.len_eq, h.byte_eq, h.f32_eq,
    h.f64_eq, h.h64Over64_eq]

theorem ByteRun.SameBytes.h64s_eq (seed : Word) : h64s K B seed = h64s K C seed := by
  rw [h64s, h.h64_eq, h64s]

theorem ByteRun.SameBytes.h64s2_eq (seed0 seed1 : Word) : h64s2 K B seed0 seed1 = h64s2 K C seed0 seed1 := by
  rw [h64s2, h.h64_eq, h64s2]

theorem ByteRun.SameBytes.cmLoop_eq (left p : Nat) (r : CMRegs) : cmLoop K B left p r = cmLoop K C left p r := by
  induction left generalizing p r with
  | zero => rfl
  | succ left ih => simp only [cmLoop, cmGroup, h.f64_eq, ih]

theorem ByteRun.SameBytes.cityMurmur_eq (s0 s1 adj : Word) : cityMurmur K B s0 s1 adj = cityMurmur K C s0 s1 adj := by
  simp only [cityMurmur, cmMix, cmShortRun, cmStart, h.len_eq, h.f64_eq, h.h64_eq, h.cmLoop_eq]

/-- `H128S` is a function of its seed and the bytes of its run: the sub-runs of the long regime lie inside it (R202). -/
theorem ByteRun.SameBytes.h128s_eq (s0 s1 : Word) : h128s K B s0 s1 = h128s K C s0 s1 := by
  unfold h128s h128Long
  rw [h.len_eq]
  split_ifs with hn
  · exact h.cityMurmur_eq K s0 s1 0
  · have hhead := h.sub (p := 0) (q := 16) (by omega)
    have htail := h.sub (p := C.len - 16) (q := C.len) le_rfl
    have hbody := h.sub (p := 0) (q := C.len - 16) (by omega)
    simp only [hhead.h64_eq, htail.h64_eq, hbody.cityMurmur_eq]

/-- `H128` is a function of the bytes of its run: the run behind the seed lies inside it (R193). -/
theorem ByteRun.SameBytes.h128_eq : h128 K B = h128 K C := by
  have hrest := h.sub (p := 16) (q := C.len) le_rfl
  simp only [h128, h.len_eq, h.f64_eq, h.h128s_eq, hrest.h128s_eq]

end

/-! ### Commands -/

/-- The state with its window moved: the same registers, over another memory and from another base. -/
def State.moveWindow (s : State) (m : Memory) (base : Word) : State := { s with mem := m, bufBase := base }

/-- The byte of the claims is the byte of a run (R36, R51). -/
theorem byteAt_eq_read_addr (B : ByteRun) (i : Nat) : byteAt B.mem B.base i = (B.mem.read (B.addr i)).toNat := by
  rw [byteAt, ByteRun.addr, BitVec.ofNat_add, BitVec.ofNat_toNat, BitVec.setWidth_eq]

/-- A moved window whose bytes are the same. -/
theorem sameBytes_moveWindow {s : State} {m : Memory} {base : Word}
    (h : ∀ k, k < s.bufLen.toNat → byteAt m base k = byteAt s.mem s.bufBase k) :
    (s.moveWindow m base).window.SameBytes s.window where
  len_eq := rfl
  read_eq i hi := by
    apply BitVec.eq_of_toNat_eq
    rw [← byteAt_eq_read_addr, ← byteAt_eq_read_addr]
    exact h i hi

/-- A result that takes no account of a moved window: it completes, with the same next state but for memory and base. -/
def MovesWithWindow (f : State → Result) (s : State) (m : Memory) (base : Word) : Prop :=
  ∃ t, f s = .next t ∧ f (s.moveWindow m base) = .next (t.moveWindow m base)

/-- An engine that has a value, the same from both windows, and a result put where neither memory nor base is. -/
theorem movesWithWindow_completeWith {α : Type} {engine : State → Option α} {put : State → α → State} {s : State}
    {m : Memory} {base : Word} (hsome : ∃ v, engine s = some v) (hsame : engine (s.moveWindow m base) = engine s)
    (hput : ∀ v, put (s.moveWindow m base) v = (put s v).moveWindow m base) :
    MovesWithWindow (fun s => completeWith (engine s) (put s)) s m base := by
  obtain ⟨v, hv⟩ := hsome
  exact ⟨put s v, by simp [hv], by simp [hsame, hv, hput]⟩

/-- Every command moves with its window: the primitives do not read it, and every fetch and every engine sees its bytes only. -/
theorem exec_movesWithWindow (i : Instr) {s : State} {m : Memory} {base : Word}
    (h : (s.moveWindow m base).window.SameBytes s.window) : MovesWithWindow (exec i) s m base := by
  cases i with
  | fetch32 rd ra =>
    have hf : (s.moveWindow m base).window.f32 ((s.moveWindow m base).offset ra) = s.window.f32 (s.offset ra) :=
      h.f32_eq _
    simp only [MovesWithWindow, exec, execFetch32, hf]
    cases s.window.f32 (s.offset ra) <;> exact ⟨_, rfl, rfl⟩
  | fetch64 rd ra =>
    have hf : (s.moveWindow m base).window.f64 ((s.moveWindow m base).offset ra) = s.window.f64 (s.offset ra) :=
      h.f64_eq _
    simp only [MovesWithWindow, exec, execFetch64, hf]
    cases s.window.f64 (s.offset ra) <;> exact ⟨_, rfl, rfl⟩
  | rotr64 rd ra rb => exact ⟨_, rfl, rfl⟩
  | rotr64i rd ra imm6 => exact ⟨_, rfl, rfl⟩
  | rotr32 rd ra rb => exact ⟨_, rfl, rfl⟩
  | rotr32i rd ra imm6 => exact ⟨_, rfl, rfl⟩
  | shmix rd ra => exact ⟨_, rfl, rfl⟩
  | comb16 rd ra rb => exact ⟨_, rfl, rfl⟩
  | comb16m rd ra rb rc => exact ⟨_, rfl, rfl⟩
  | wpair32 rd ra rb rc => exact ⟨_, rfl, rfl⟩
  | hash32 rd => exact movesWithWindow_completeWith (h32_exists consts s.window) (h.h32_eq consts) fun _ => rfl
  | hash64 rd => exact movesWithWindow_completeWith (h64_exists consts s.window) (h.h64_eq consts) fun _ => rfl
  | hash64s rd ra =>
    exact movesWithWindow_completeWith (h64s_exists consts s.window (s.reg ra)) (h.h64s_eq consts _) fun _ => rfl
  | hash64s2 rd ra rb =>
    exact movesWithWindow_completeWith (h64s2_exists consts s.window (s.reg ra) (s.reg rb)) (h.h64s2_eq consts _ _)
      fun _ => rfl
  | hash128 rd => exact movesWithWindow_completeWith (h128_exists consts s.window) (h.h128_eq consts) fun _ => rfl
  | hash128s rd ra rb =>
    exact movesWithWindow_completeWith (h128s_exists consts s.window (s.reg ra) (s.reg rb)) (h.h128s_eq consts _ _)
      fun _ => rfl

/-- Settles O24: a window moved with its bytes is `moveWindow`, and every command moves with it. -/
theorem resultsDependOnWindowBytesOnly : Obligations.ResultsDependOnWindowBytesOnly := by
  intro i s m base h
  exact exec_movesWithWindow i (sameBytes_moveWindow h)

end Sys2Proof.Machine
end

section
/-! PROOFS of the family 30_encoding: decode and encode agree (R81 to R86, R93, R94), the pseudo-instructions (R91), the `mem` action (R92). -/

namespace Sys2Proof

open Sys2Proof.Claims Sys2Proof.Laws.EncodeOpcode

/-! ### A field in its place -/

/-- A field read and put back in its place is the word with every other bit cleared. -/
theorem setWidth_extractLsb'_shiftLeft (c : Half) (lo w : Nat) :
    (c.extractLsb' lo w).setWidth 32 <<< lo = c &&& (BitVec.allOnes w).setWidth 32 <<< lo := by
  apply BitVec.eq_of_getLsbD_eq
  intro k hk
  by_cases hlo : k < lo
  · simp [hlo]
  · simp [hlo, hk, show lo + (k - lo) = k by omega, Bool.and_comm]

/-- A field put in its place reads back. -/
theorem extractLsb'_shiftLeft_same {w : Nat} (x : BitVec w) {lo : Nat} (h : lo + w ≤ 32) :
    (x.setWidth 32 <<< lo).extractLsb' lo w = x := by
  apply BitVec.eq_of_getLsbD_eq
  intro k hk
  simp [hk, show lo + k < 32 by omega]

/-- A field has no bit below its place. -/
theorem extractLsb'_shiftLeft_below (c : Half) {lo lo' w' : Nat} (h : lo' + w' ≤ lo) :
    (c <<< lo).extractLsb' lo' w' = 0 := by
  apply BitVec.eq_of_getLsbD_eq
  intro k hk
  simp [show lo' + k < lo by omega]

/-- A field has no bit above its place. -/
theorem extractLsb'_shiftLeft_above {w : Nat} (x : BitVec w) {lo lo' : Nat} (w' : Nat) (h : lo + w ≤ lo') :
    (x.setWidth 32 <<< lo).extractLsb' lo' w' = 0 := by
  apply BitVec.eq_of_getLsbD_eq
  intro k hk
  simp [BitVec.getLsbD_of_ge x (lo' + k - lo) (by omega)]

/-- A register field is the four bits of the register's number, in their place (R81). -/
theorem regBits_eq (r : Reg) (lo : Nat) : regBits r lo = (BitVec.ofFin (w := 4) r).setWidth 32 <<< lo := by
  rw [← BitVec.ofNat_toNat]
  rfl

/-- An immediate that fits is its six bits, in their place (R81). -/
theorem imm6_eq {imm6 : Nat} (h : imm6 < 64) :
    BitVec.ofNat 32 imm6 = (BitVec.ofNat 6 imm6).setWidth 32 <<< 0 := by
  rw [BitVec.shiftLeft_zero, BitVec.setWidth_ofNat_of_le_of_lt (by decide) h]

/-- The register field at `lo`, read and put back. -/
theorem regBits_regAt (c : Half) (lo : Nat) : regBits (regAt c lo) lo = c &&& (0xF : Half) <<< lo :=
  (regBits_eq _ lo).trans (setWidth_extractLsb'_shiftLeft c lo 4)

/-- The immediate, read and put back. -/
theorem ofNat_imm6_fieldsOf (c : Half) : BitVec.ofNat 32 (fieldsOf c).imm6 = c &&& 0x3F := by
  have h := setWidth_extractLsb'_shiftLeft c 0 6
  rwa [BitVec.shiftLeft_zero, ← BitVec.ofNat_toNat] at h

/-- The immediate of any word fits. -/
theorem imm6_fieldsOf_lt (c : Half) : (fieldsOf c).imm6 < 64 := (c.extractLsb' 0 6).isLt

/-- The operand fields of a field word are the fields put there (R81). -/
theorem fieldsOf_fieldWord (op : Nat) (rd ra rb rc : Reg) {imm6 : Nat} (hi : imm6 < 64) :
    fieldsOf (fieldWord op rd ra rb rc imm6) = ⟨rd, ra, rb, rc, imm6⟩ := by
  simp only [fieldsOf, regAt, fieldWord, opBits, regBits_eq, imm6_eq hi, BitVec.extractLsb'_or]
  simp (disch := omega) only [extractLsb'_shiftLeft_same, extractLsb'_shiftLeft_below, extractLsb'_shiftLeft_above]
  simpa using Nat.mod_eq_of_lt hi

/-! ### The rows of the opcode map -/

/-! A word of each format (R82): the opcode, and the bits of `c` that the format's mask leaves open. -/

theorem wordR1 (op : Nat) (c : Half) : opBits op ||| regBits (regAt c 20) 20 = opBits op ||| (c &&& ~~~maskR1) := by
  rw [regBits_regAt]
  rfl

theorem wordR2 (op : Nat) (c : Half) :
    opBits op ||| regBits (regAt c 20) 20 ||| regBits (regAt c 16) 16 = opBits op ||| (c &&& ~~~maskR2) := by
  rw [wordR1, regBits_regAt, BitVec.or_assoc, ← BitVec.and_or_distrib_left]
  rfl

theorem wordR3 (op : Nat) (c : Half) :
    opBits op ||| regBits (regAt c 20) 20 ||| regBits (regAt c 16) 16 ||| regBits (regAt c 12) 12 =
      opBits op ||| (c &&& ~~~maskR3) := by
  rw [wordR2, regBits_regAt, BitVec.or_assoc, ← BitVec.and_or_distrib_left]
  rfl

theorem wordR4 (op : Nat) (c : Half) :
    opBits op ||| regBits (regAt c 20) 20 ||| regBits (regAt c 16) 16 ||| regBits (regAt c 12) 12 ||| regBits (regAt c 8) 8 =
      opBits op ||| (c &&& ~~~maskR4) := by
  rw [wordR3, regBits_regAt, BitVec.or_assoc, ← BitVec.and_or_distrib_left]
  rfl

theorem wordI (op : Nat) (c : Half) :
    opBits op ||| regBits (regAt c 20) 20 ||| regBits (regAt c 16) 16 ||| BitVec.ofNat 32 (fieldsOf c).imm6 =
      opBits op ||| (c &&& ~~~maskI) := by
  rw [wordR2, ofNat_imm6_fieldsOf, BitVec.or_assoc, ← BitVec.and_or_distrib_left]
  rfl

/-- The command a row makes of the fields of a word is encoded with the row's match value under the mask and the word's own bits elsewhere
(R82, R83). -/
theorem encode_build {r : Row} (hr : r ∈ opcodeMap) (c : Half) :
    encode (r.build (fieldsOf c)) = r.value ||| (c &&& ~~~r.mask) := by
  revert r
  simp only [opcodeMap, rowsPrimitive, rowsHash, List.cons_append, List.nil_append, List.forall_mem_cons]
  exact ⟨wordR2 0x01 c, wordR2 0x02 c, wordR3 0x10 c, wordI 0x11 c, wordR3 0x12 c, wordI 0x13 c, wordR2 0x14 c, wordR3 0x15 c,
    wordR4 0x16 c, wordR4 0x17 c, wordR1 0x20 c, wordR1 0x30 c, wordR2 0x31 c, wordR3 0x32 c, wordR1 0x40 c, wordR3 0x41 c, nofun⟩

/-- What a row makes of the fields of a word is well formed (R87). -/
theorem wellFormed_build {r : Row} (hr : r ∈ opcodeMap) (c : Half) : (r.build (fieldsOf c)).WellFormed := by
  have himm : imm6Fits (fieldsOf c).imm6 = true := decide_eq_true (imm6_fieldsOf_lt c)
  revert r
  simp only [opcodeMap, rowsPrimitive, rowsHash, List.cons_append, List.nil_append, List.forall_mem_cons]
  exact ⟨rfl, rfl, rfl, himm, rfl, himm, rfl, rfl, rfl, rfl, rfl, rfl, rfl, rfl, rfl, rfl, nofun⟩

/-- A row's match value has no bit outside its mask (R82). -/
theorem value_and_mask : ∀ r ∈ opcodeMap, r.value &&& r.mask = r.value := by decide

/-- A row's mask covers the whole opcode (R82). -/
theorem opcodeOf_mask : ∀ r ∈ opcodeMap, opcodeOf r.mask = BitVec.allOnes 8 := by decide

/-- A row admits exactly the words that are the encoding of the command it makes of their fields. -/
theorem admits_iff_encode_build {r : Row} (hr : r ∈ opcodeMap) (c : Half) :
    r.admits c = true ↔ encode (r.build (fieldsOf c)) = c := by
  rw [encode_build hr, Row.admits, beq_iff_eq]
  constructor
  · intro h
    rw [← h, ← BitVec.and_or_distrib_left, BitVec.or_not_self, BitVec.and_allOnes]
  · intro h
    calc c &&& r.mask = (r.value ||| (c &&& ~~~r.mask)) &&& r.mask := by rw [h]
      _ = r.value := by rw [BitVec.and_or_distrib_right, BitVec.and_assoc, BitVec.not_and_self, value_and_mask r hr]; simp

/-- The opcode of a word that a row admits is the row's (R83). -/
theorem opcodeOf_of_admits {r : Row} (hr : r ∈ opcodeMap) {c : Half} (h : r.admits c = true) : opcodeOf c = r.op := by
  have hc : c &&& r.mask = r.value := by simpa [Row.admits] using h
  calc opcodeOf c = opcodeOf (c &&& r.mask) := by
        rw [opcodeOf, opcodeOf, BitVec.extractLsb'_and, ← opcodeOf, ← opcodeOf, opcodeOf_mask r hr, BitVec.and_allOnes]
    _ = r.op := by rw [hc, Row.value, opcodeOf, extractLsb'_shiftLeft_same r.op (by omega)]

/-- No two rows have one opcode: a row is found by its own (R83). -/
theorem rowOf_op : ∀ {r : Row}, r ∈ opcodeMap → rowOf r.op = some r := by
  simp only [opcodeMap, rowsPrimitive, rowsHash, List.cons_append, List.nil_append, List.forall_mem_cons]
  exact ⟨rfl, rfl, rfl, rfl, rfl, rfl, rfl, rfl, rfl, rfl, rfl, rfl, rfl, rfl, rfl, rfl, nofun⟩

/-! ### What decodes -/

/-- A word decodes to a command exactly when a row of the opcode map admits it, and then to what the row makes of its fields (R86, R93). -/
theorem decodeWord_eq_ok_iff (c : Half) (i : Instr) :
    decodeWord c = .ok i ↔ ∃ r ∈ opcodeMap, r.admits c = true ∧ r.build (fieldsOf c) = i := by
  constructor
  · intro h
    unfold decodeWord at h
    split at h
    · cases h
    · next r hrow =>
      split at h
      · next hadm => exact ⟨r, List.mem_of_find?_eq_some hrow, hadm, by simpa using h⟩
      · cases h
  · rintro ⟨r, hr, hadm, rfl⟩
    simp [decodeWord, opcodeOf_of_admits hr hadm, rowOf_op hr, hadm]

/-- A word with bits 63:32 at 0 decodes as its low half (R93). -/
theorem decode_setWidth (c : Half) : decode (c.setWidth 64) = decodeWord c := by
  have hupper : (c.setWidth 64).extractLsb' 32 32 = 0 := by
    apply BitVec.eq_of_getLsbD_eq
    intro k hk
    simp
  rw [decode, if_neg (not_not.mpr hupper), BitVec.setWidth_setWidth_of_le c (by omega), BitVec.setWidth_eq]

/-- A value that decodes has bits 63:32 at 0 (R94). -/
theorem decode_ok {v : Word} {i : Instr} (h : decode v = .ok i) :
    (v.setWidth 32).setWidth 64 = v ∧ decodeWord (v.setWidth 32) = .ok i := by
  unfold decode at h
  split at h
  · cases h
  · next hupper =>
    refine ⟨?_, h⟩
    have hlt : v.toNat / 2 ^ 32 % 2 ^ 32 = 0 := by
      simpa [Nat.shiftRight_eq_div_pow] using congrArg BitVec.toNat (not_not.mp hupper)
    bv_omega

/-! ### What an encoded command reads back as -/

/-- The operand fields of a command (R82); a field its format does not have is 0, as in its word (R84). -/
def Instr.fields (i : Instr) : Fields :=
  match i with
  | .fetch32 rd ra => ⟨rd, ra, 0, 0, 0⟩
  | .fetch64 rd ra => ⟨rd, ra, 0, 0, 0⟩
  | .rotr64 rd ra rb => ⟨rd, ra, rb, 0, 0⟩
  | .rotr64i rd ra imm6 => ⟨rd, ra, 0, 0, imm6⟩
  | .rotr32 rd ra rb => ⟨rd, ra, rb, 0, 0⟩
  | .rotr32i rd ra imm6 => ⟨rd, ra, 0, 0, imm6⟩
  | .shmix rd ra => ⟨rd, ra, 0, 0, 0⟩
  | .comb16 rd ra rb => ⟨rd, ra, rb, 0, 0⟩
  | .comb16m rd ra rb rc => ⟨rd, ra, rb, rc, 0⟩
  | .wpair32 rd ra rb rc => ⟨rd, ra, rb, rc, 0⟩
  | .hash32 rd => ⟨rd, 0, 0, 0, 0⟩
  | .hash64 rd => ⟨rd, 0, 0, 0, 0⟩
  | .hash64s rd ra => ⟨rd, ra, 0, 0, 0⟩
  | .hash64s2 rd ra rb => ⟨rd, ra, rb, 0, 0⟩
  | .hash128 rd => ⟨rd, 0, 0, 0, 0⟩
  | .hash128s rd ra rb => ⟨rd, ra, rb, 0, 0⟩

/-- The immediate of a well-formed command fits (R87). -/
theorem imm6_fields_lt {i : Instr} (h : i.WellFormed) : i.fields.imm6 < 64 := by
  cases i with
  | rotr64i rd ra imm6 => exact of_decide_eq_true h
  | rotr32i rd ra imm6 => exact of_decide_eq_true h
  | _ => exact Nat.zero_lt_succ 63

/-- Every command is encoded as the field word of its opcode and its operand fields (R90). -/
theorem encode_eq_fieldWord (i : Instr) :
    encode i = fieldWord (opcode i).toNat i.fields.rd i.fields.ra i.fields.rb i.fields.rc i.fields.imm6 := by
  cases i <;> simp [encode, fieldWord, Instr.fields, opcode]

/-- The word of a well-formed command has the command's operand fields (R81). -/
theorem fieldsOf_encode {i : Instr} (h : i.WellFormed) : fieldsOf (encode i) = i.fields := by
  rw [encode_eq_fieldWord, fieldsOf_fieldWord _ _ _ _ _ (imm6_fields_lt h)]

/-- Every command is what some row of the opcode map makes of its operand fields (R83). -/
theorem exists_row_build_fields (i : Instr) : ∃ r ∈ opcodeMap, r.build i.fields = i := by
  simp only [opcodeMap, rowsPrimitive, rowsHash, List.cons_append, List.nil_append, List.exists_mem_cons_iff]
  cases i <;> simp [Instr.fields]

/-- Settles O1: a row makes the command of its own word's fields, so it admits the word, and the word decodes to what it makes. -/
theorem decodeOfEncodeIsTheCommand : Obligations.DecodeOfEncodeIsTheCommand := by
  intro i hi
  obtain ⟨r, hr, hfields⟩ := exists_row_build_fields i
  have hbuild : r.build (fieldsOf (encode i)) = i := by rw [fieldsOf_encode hi, hfields]
  have hadm : r.admits (encode i) = true := (admits_iff_encode_build hr _).mpr (by rw [hbuild])
  rw [encodeValue, decode_setWidth]
  exact (decodeWord_eq_ok_iff _ _).mpr ⟨r, hr, hadm, hbuild⟩

/-- Settles O2: the row that admits the word makes a well-formed command of it, whose encoding is the word. -/
theorem decodedValueIsItsOwnEncoding : Obligations.DecodedValueIsItsOwnEncoding := by
  intro v i h
  obtain ⟨hv, hword⟩ := decode_ok h
  obtain ⟨r, hr, hadm, rfl⟩ := (decodeWord_eq_ok_iff _ _).mp hword
  exact ⟨wellFormed_build hr _, by rw [encodeValue, (admits_iff_encode_build hr _).mp hadm, hv]⟩

/-- Settles O4: each value is decoded by evaluation. -/
theorem writtenOutWordsDecode : Obligations.WrittenOutWordsDecode := by
  unfold Obligations.WrittenOutWordsDecode
  decide

/-! ### The opcode map of the claims -/

/-- The table of the claims lists the opcode and the mask of each row. -/
theorem opcodeTable_eq : opcodeTable = opcodeMap.map (fun r => (r.op.toNat, r.mask)) := rfl

/-- A row of the table admits a word exactly when the row of the opcode map does (R82). -/
theorem admits_opcodeTable_iff (r : Row) (c : Half) : Admits (r.op.toNat, r.mask) c ↔ r.admits c = true := by
  rw [Admits, BitVec.ofNat_toNat, Row.admits, beq_iff_eq, Row.value]

/-- Settles O3: the words that decode are those a row admits; two rows that do have its opcode, and so are one row. -/
theorem eachWordIsOneCommandOrIllegal : Obligations.EachWordIsOneCommandOrIllegal := by
  unfold Obligations.EachWordIsOneCommandOrIllegal
  simp only [opcodeTable_eq, List.mem_map, exists_exists_and_eq_and, forall_exists_index, and_imp, forall_apply_eq_imp_iff₂,
    admits_opcodeTable_iff]
  refine ⟨fun c => ?_, fun c r hr r' hr' hadm hadm' => ?_, fun c hc => ?_⟩
  · simp only [decodeWord_eq_ok_iff]
    exact ⟨fun ⟨_, r, hr, hadm, _⟩ => ⟨r, hr, hadm⟩, fun ⟨r, hr, hadm⟩ => ⟨_, r, hr, hadm, rfl⟩⟩
  · have hop : r.op = r'.op := (opcodeOf_of_admits hr hadm).symm.trans (opcodeOf_of_admits hr' hadm')
    have hrow : some r = some r' := by rw [← rowOf_op hr, hop, rowOf_op hr']
    rw [Option.some.inj hrow]
  · cases h : decodeWord c with
    | ok i => exact absurd h (hc i)
    | error e => exact ⟨e, rfl⟩

end Sys2Proof

namespace Sys2Proof.Machine

open Sys2Proof.Claims

/-! ### The pseudo-instructions -/

/-- A register field keeps its place in the written value (R90). -/
theorem setWidth_regBits (r : Reg) {lo : Nat} (h : lo + 4 ≤ 32) : (regBits r lo).setWidth 64 = fieldAt r lo := by
  apply BitVec.eq_of_getLsbD_eq
  intro k hk
  simp only [regBits, fieldAt, BitVec.getLsbD_setWidth, BitVec.getLsbD_shiftLeft, BitVec.getLsbD_ofNat]
  by_cases hk32 : k < 32
  · simp [hk, hk32, show k - lo < 32 by omega, show k - lo < 64 by omega]
  · simp [hk32, reg_testBit r (show 4 ≤ k - lo by omega)]

/-! The values of the two expansions: the opcode and the two register fields (R90, R91). -/

theorem encodeValue_rotr64i_zero (rd ra : Reg) :
    encodeValue (.rotr64i rd ra 0) = 0x11000000 ||| fieldAt rd 20 ||| fieldAt ra 16 := by
  simp [encodeValue, encode, BitVec.setWidth_or, setWidth_regBits, opBits]

theorem encodeValue_rotr32i_zero (rd ra : Reg) :
    encodeValue (.rotr32i rd ra 0) = 0x13000000 ||| fieldAt rd 20 ||| fieldAt ra 16 := by
  simp [encodeValue, encode, BitVec.setWidth_or, setWidth_regBits, opBits]

/-! A rotation by 0 is the identity (R120, R121). -/

@[simp] theorem rotr64_zero (v : Word) : rotr64 v 0 = v := rfl

@[simp] theorem rotr32_zero (v : Half) : rotr32 v 0 = v := rfl

/-- `ROTR64I` by 0 copies its source (R91, R126). -/
theorem exec_rotr64i_zero (rd ra : Reg) (s : State) : exec (.rotr64i rd ra 0) s = .next (s.setReg rd (s.reg ra)) := by
  simp [exec, execRotr64i]

/-- `ROTR32I` by 0 copies the low half of its source (R91, R128). -/
theorem exec_rotr32i_zero (rd ra : Reg) (s : State) : exec (.rotr32i rd ra 0) s = .next (s.setReg32 rd (s.low32 ra)) := by
  simp [exec, execRotr32i]

/-- A 32-bit result of a register's low half is the register modulo 2^32 (R23). -/
theorem reg_setReg32_low32 (s : State) (rd ra : Reg) :
    ((s.setReg32 rd (s.low32 ra)).reg rd).toNat = (s.reg ra).toNat % 2 ^ 32 := by
  rw [State.setReg32, reg_setReg_same, State.low32, BitVec.toNat_setWidth_of_le (by omega), BitVec.toNat_setWidth]

/-- Settles O5: each pseudo-instruction is the word of a rotation by 0, which copies its source. -/
theorem pseudoInstructionsAreExact : Obligations.PseudoInstructionsAreExact := by
  intro rd ra s
  rw [← encodeValue_rotr64i_zero, ← encodeValue_rotr32i_zero]
  refine ⟨rfl, decodeOfEncodeIsTheCommand _ rfl, ⟨_, exec_rotr64i_zero rd ra s, ?_, ?_⟩,
    rfl, decodeOfEncodeIsTheCommand _ rfl, ⟨_, exec_rotr32i_zero rd ra s, ?_, ?_⟩⟩
  · exact reg_setReg_same s rd (s.reg ra)
  · exact setReg_writesOnly s rd (s.reg ra)
  · exact reg_setReg32_low32 s rd ra
  · exact setReg_writesOnly s rd _

/-! ### The environment's `mem` action -/

/-- The addresses from the next one up, numbered from the next one (R92). -/
theorem add_ofNat_succ (a : Word) (j : Nat) : a + BitVec.ofNat 64 (j + 1) = a + 1 + BitVec.ofNat 64 j := by
  rw [BitVec.add_assoc, Nat.add_comm, BitVec.ofNat_add]
  rfl

/-- Placing bytes leaves every address alone that is none of theirs (R92). -/
theorem memPlace_read_other (bytes : List Byte) {m : Memory} (h : m.wf = true) {a b : Word}
    (hb : ∀ j, j < bytes.length → b ≠ a + BitVec.ofNat 64 j) : (memPlace m a bytes).read b = m.read b := by
  induction bytes generalizing m a with
  | nil => rfl
  | cons x rest ih =>
    have hrest : ∀ j, j < rest.length → b ≠ a + 1 + BitVec.ofNat 64 j := fun j hj =>
      add_ofNat_succ a j ▸ hb (j + 1) (by simpa using hj)
    have hne : b ≠ a := by simpa using hb 0 (by simp)
    rw [memPlace, ih (Memory.write_wf h a x) hrest, Memory.read_write_other h x hne]

/-- No address comes again before all 2^64 have come. -/
theorem ne_add_one_add_ofNat (a : Word) {j : Nat} (h : j + 1 < 2 ^ 64) : a ≠ a + 1 + BitVec.ofNat 64 j := by
  bv_omega

/-- Bytes placed read back, each at its own address, when they are no more than the addresses (R92). -/
theorem memPlace_read_placed (bytes : List Byte) {m : Memory} (h : m.wf = true) (a : Word) (hlen : bytes.length ≤ 2 ^ 64)
    {j : Nat} (hj : j < bytes.length) : (memPlace m a bytes).read (a + BitVec.ofNat 64 j) = bytes[j] := by
  induction bytes generalizing m a j with
  | nil => cases hj
  | cons x rest ih =>
    rw [List.length_cons] at hlen hj
    have hwf := Memory.write_wf h a x
    rw [memPlace]
    cases j with
    | zero =>
      have hlater : ∀ k, k < rest.length → a ≠ a + 1 + BitVec.ofNat 64 k := fun k hk => ne_add_one_add_ofNat a (by omega)
      have hfirst : a + BitVec.ofNat 64 0 = a := BitVec.add_zero a
      rw [hfirst, memPlace_read_other rest hwf hlater, Memory.read_write_same h,
        List.getElem_cons_zero]
    | succ j => rw [add_ofNat_succ, ih hwf (a + 1) (by omega) (by omega), List.getElem_cons_succ]

/-- Settles O9: the action replaces memory by `memPlace` of it and nothing else. -/
theorem environmentPlacesBytes : Obligations.EnvironmentPlacesBytes := by
  intro s addr bytes rest hwf hlen hp
  refine ⟨{ s with pending := rest, mem := memPlace s.mem addr bytes }, step_pending hp, ⟨rfl, rfl, rfl, rfl, rfl⟩,
    rfl, rfl, fun j hj => ?_, fun a ha => ?_⟩
  · exact memPlace_read_placed bytes hwf addr hlen hj
  · exact memPlace_read_other bytes hwf ha

end Sys2Proof.Machine
end

section
/-! PROOFS of the family 40_word_fetch: a fetch is a little-endian sum (R110, R111), a fetch of a sub-run is one of the run (R116), the commands `FETCH32`
and `FETCH64` (R112, R113). -/

namespace Sys2Proof.Machine

open Sys2Proof.Claims Sys2Proof.Laws.EncodeOpcode

/-! ### A fetch as a sum of bytes -/

/-- The little-endian value of the `k` bytes of a run from index `i` up: the byte at index `i + j` weighs `2 ^ (8 * j)` (R52). -/
theorem leValue_memRead_addr (B : ByteRun) (i k : Nat) :
    leValue (memRead B.mem (B.addr i) k) = ∑ j ∈ Finset.range k, 2 ^ (8 * j) * byteAt B.mem B.base (i + j) := by
  induction k with
  | zero => rfl
  | succ k ih =>
    have hlast : leValue (memRead B.mem (B.addr (i + k)) 1) = byteAt B.mem B.base (i + k) := by
      rw [byteAt_eq_read_addr]
      rfl
    rw [memRead_add, leValue_append, ih, memRead_length, ← addr_add, hlast, Finset.sum_range_succ]

/-- A 32-bit fetch in bounds is the sum of its four bytes (R110). -/
theorem f32_eq_some_le32 {B : ByteRun} {i : Nat} (h : i + 4 ≤ B.len) :
    ∃ v, B.f32 i = some v ∧ v.toNat = le32 B.mem B.base i := by
  refine ⟨_, f32_inBounds B i h, ?_⟩
  rw [BitVec.toNat_ofNat, Nat.mod_eq_of_lt (leValue_memRead_lt B.mem (B.addr i) 4), leValue_memRead_addr]
  simp [Finset.sum_range_succ, le32]

/-- A 64-bit fetch in bounds is the sum of its eight bytes (R111). -/
theorem f64_eq_some_le64 {B : ByteRun} {i : Nat} (h : i + 8 ≤ B.len) :
    ∃ v, B.f64 i = some v ∧ v.toNat = le64 B.mem B.base i := by
  refine ⟨_, f64_inBounds B i h, ?_⟩
  rw [BitVec.toNat_ofNat, Nat.mod_eq_of_lt (leValue_memRead_lt B.mem (B.addr i) 8), leValue_memRead_addr]
  simp [Finset.sum_range_succ, le64]

/-- Settles O25: in bounds a fetch is the sum of its bytes, past the end it has no value. -/
theorem fetchesAreLittleEndianSums : Obligations.FetchesAreLittleEndianSums := by
  intro B i
  exact ⟨f32_eq_some_le32, f32_pastEnd B i, f64_eq_some_le64, f64_pastEnd B i⟩

/-! ### Sub-runs -/

/-- Bytes in bounds of a sub-run that lies inside the run are bytes of the run (R116). -/
theorem bytes_sub {B : ByteRun} {p q i w : Nat} (hq : q ≤ B.len) (h : i + w ≤ q - p) (hw : 0 < w) :
    (B.sub p q).bytes i w = B.bytes (p + i) w := by
  rw [bytes_inBounds (B.sub p q) i w h, bytes_inBounds B (p + i) w (by omega), sub_mem, sub_addr]

/-- Settles O27: a fetch is a function of the bytes it reads, and these are bytes of the run. -/
theorem subRunFetchIsFetchOfTheRun : Obligations.SubRunFetchIsFetchOfTheRun := by
  intro B p q i hq
  refine ⟨fun h => ?_, fun h => ?_⟩
  · rw [ByteRun.f64, bytes_sub hq h (by omega), ByteRun.f64]
  · rw [ByteRun.f32, bytes_sub hq h (by omega), ByteRun.f32]

/-! ### The values written to `CMD` for the commands -/

/-- An empty register field of a command value adds no bit. -/
@[simp] theorem fieldAt_zero (lo : Nat) : fieldAt 0 lo = 0 := by simp [fieldAt]

/-- The value with a command's opcode and operand fields in their places is the command (R81, R90). -/
theorem commandWord_fields {i : Instr} (h : i.WellFormed) :
    CommandWord ((opBits (opcode i).toNat).setWidth 64 ||| fieldAt i.fields.rd 20 ||| fieldAt i.fields.ra 16 |||
      fieldAt i.fields.rb 12 ||| fieldAt i.fields.rc 8 ||| BitVec.ofNat 64 i.fields.imm6) i := by
  have himm : (BitVec.ofNat 32 i.fields.imm6).setWidth 64 = BitVec.ofNat 64 i.fields.imm6 :=
    BitVec.setWidth_ofNat_of_le_of_lt (by omega) (lt_trans (imm6_fields_lt h) (by omega))
  have hdec : CommandWord (encodeValue i) i := decodeOfEncodeIsTheCommand i h
  simpa (disch := omega) only [encodeValue, encode_eq_fieldWord, fieldWord, BitVec.setWidth_or, setWidth_regBits, himm] using hdec

/-! ### The fetch commands -/

/-- A 32-bit result keeps its value in the register (R23). -/
theorem toNat_reg_setReg32 (s : State) (r : Reg) (v : Half) : ((s.setReg32 r v).reg r).toNat = v.toNat := by
  rw [State.setReg32, reg_setReg_same, BitVec.toNat_setWidth_of_le (by omega)]

section
variable {s : State} {ra : Reg}

/-- `FETCH32` writes the fetched value (R112). -/
theorem exec_fetch32_of_some {v : Half} (rd : Reg) (h : s.window.f32 (s.reg ra).toNat = some v) :
    exec (.fetch32 rd ra) s = .next (s.setReg32 rd v) := by
  simp [exec, execFetch32, State.offset, h]

/-- `FETCH32` past the end of the window takes FETCH_BOUNDS (R112, R221). -/
theorem exec_fetch32_pastEnd (rd : Reg) (h : s.bufLen.toNat < (s.reg ra).toNat + 4) :
    exec (.fetch32 rd ra) s = .next (raiseFault .fetchBounds (s.reg ra) s) := by
  simp [exec, execFetch32, State.offset, f32_pastEnd s.window _ h]

/-- `FETCH64` writes the fetched value (R113). -/
theorem exec_fetch64_of_some {v : Word} (rd : Reg) (h : s.window.f64 (s.reg ra).toNat = some v) :
    exec (.fetch64 rd ra) s = .next (s.setReg rd v) := by
  simp [exec, execFetch64, State.offset, h]

/-- `FETCH64` past the end of the window takes FETCH_BOUNDS (R113, R221). -/
theorem exec_fetch64_pastEnd (rd : Reg) (h : s.bufLen.toNat < (s.reg ra).toNat + 8) :
    exec (.fetch64 rd ra) s = .next (raiseFault .fetchBounds (s.reg ra) s) := by
  simp [exec, execFetch64, State.offset, f64_pastEnd s.window _ h]

end

/-- Settles O31: in bounds `FETCH32` writes a value that is the sum of the window's bytes, past the end it takes FETCH_BOUNDS. -/
theorem fetch32LoadsALittleEndianWord : Obligations.Fetch32LoadsALittleEndianWord := by
  intro rd ra s
  refine ⟨?_, fun hin => ?_, fun hpast => ?_⟩
  · simpa [opcode, Instr.fields, opBits] using commandWord_fields (i := .fetch32 rd ra) rfl
  · obtain ⟨v, hv, hsum⟩ := f32_eq_some_le32 (B := s.window) hin
    exact ⟨_, exec_fetch32_of_some rd hv, (toNat_reg_setReg32 s rd v).trans hsum, setReg_writesOnly s rd _⟩
  · exact ⟨_, exec_fetch32_pastEnd rd hpast, raiseFault_takesFault .fetchBounds (s.reg ra) s⟩

/-- Settles O32: in bounds `FETCH64` writes a value that is the sum of the window's bytes, past the end it takes FETCH_BOUNDS. -/
theorem fetch64LoadsALittleEndianWord : Obligations.Fetch64LoadsALittleEndianWord := by
  intro rd ra s
  refine ⟨?_, fun hin => ?_, fun hpast => ?_⟩
  · simpa [opcode, Instr.fields, opBits] using commandWord_fields (i := .fetch64 rd ra) rfl
  · obtain ⟨v, hv, hsum⟩ := f64_eq_some_le64 (B := s.window) hin
    refine ⟨_, exec_fetch64_of_some rd hv, ?_, setReg_writesOnly s rd v⟩
    rw [reg_setReg_same, hsum, window_mem, window_base]
  · exact ⟨_, exec_fetch64_pastEnd rd hpast, raiseFault_takesFault .fetchBounds (s.reg ra) s⟩

end Sys2Proof.Machine
end

section
/-! PROOFS of the family 41_mixing_primitives: the rotations (R120, R121, R134), `shift_mix` and `combine16` (R122, R123, R135), and the eight commands
that expose the primitives (R125 to R132). -/

namespace Sys2Proof.Machine

open Sys2Proof.Claims Sys2Proof.Laws.EncodeOpcode

/-! ### Rotations at any width -/

section
variable {w : Nat} (v : BitVec w) (s t : Nat)

/-- Bit `k` of a right rotation by `s` is bit `(k + s) mod w`: the bits that fall off at the bottom come in at the top. -/
theorem getLsbD_rotateRight_eq_mod {k : Nat} (hk : k < w) : (v.rotateRight s).getLsbD k = v.getLsbD ((k + s) % w) := by
  have hs : s % w < w := Nat.mod_lt s (by omega)
  rw [BitVec.getLsbD_rotateRight, ← Nat.add_mod_mod]
  generalize s % w = r at hs ⊢
  by_cases hlow : k < w - r
  · simp [hlow, Nat.add_comm r k, Nat.mod_eq_of_lt (show k + r < w by omega)]
  · have hmod : (k + r) % w = k - (w - r) := by
      rw [Nat.mod_eq_sub_mod (by omega), Nat.mod_eq_of_lt (by omega)]
      omega
    simp [hlow, hk, hmod]

/-- A rotation by a multiple of the width is the identity. -/
theorem rotateRight_eq_self {s : Nat} (h : s % w = 0) : v.rotateRight s = v := by
  rw [BitVec.rotateRight_def, h]
  simp

theorem rotateRight_add_width : v.rotateRight (s + w) = v.rotateRight s := by
  rw [← BitVec.rotateRight_mod_eq_rotateRight, Nat.add_mod_right, BitVec.rotateRight_mod_eq_rotateRight]

theorem rotateRight_rotateRight : (v.rotateRight s).rotateRight t = v.rotateRight (s + t) := by
  apply BitVec.eq_of_getLsbD_eq
  intro k hk
  rw [getLsbD_rotateRight_eq_mod _ t hk, getLsbD_rotateRight_eq_mod _ s (Nat.mod_lt _ (by omega)),
    getLsbD_rotateRight_eq_mod _ (s + t) hk, Nat.mod_add_mod, Nat.add_assoc, Nat.add_comm t s]

/-- A rotation permutes the bits, so it keeps the number of ones. -/
theorem ones_rotateRight : ones (v.rotateRight s) = ones v := by
  rcases Nat.eq_zero_or_pos w with rfl | hw
  · rfl
  · have : NeZero w := ⟨by omega⟩
    refine Finset.card_equiv (Equiv.addRight (Fin.ofNat w s)) fun k => ?_
    have hval : (k + Fin.ofNat w s).val = (k.val + s) % w := by simp [Fin.val_add]
    rw [Finset.mem_filter_univ, Finset.mem_filter_univ, Equiv.coe_addRight, hval, getLsbD_rotateRight_eq_mod v s k.isLt]

end

/-! ### The rotations of the model -/

/-- `rotr64` is the rotation of a 64-bit word (R120). -/
theorem rotr64_eq_rotateRight (v : Word) (s : Nat) : rotr64 v s = v.rotateRight s := by
  rw [rotr64]
  split_ifs with h
  · exact (rotateRight_eq_self v h).symm
  · exact BitVec.rotateRight_def.symm

/-- `rotr32` is the rotation of a 32-bit word (R121). -/
theorem rotr32_eq_rotateRight (v : Half) (s : Nat) : rotr32 v s = v.rotateRight s := by
  rw [rotr32]
  split_ifs with h
  · exact (rotateRight_eq_self v h).symm
  · exact BitVec.rotateRight_def.symm

/-- Bit `k` of `rotr64(v, s)` is bit `(k + s) mod 64` of `v` (R120). -/
theorem getLsbD_rotr64 (v : Word) (s : Nat) {k : Nat} (hk : k < 64) : (rotr64 v s).getLsbD k = v.getLsbD ((k + s) % 64) := by
  rw [rotr64_eq_rotateRight, getLsbD_rotateRight_eq_mod v s hk]

/-- Bit `k` of `rotr32(v, s)` is bit `(k + s) mod 32` of `v` (R121). -/
theorem getLsbD_rotr32 (v : Half) (s : Nat) {k : Nat} (hk : k < 32) : (rotr32 v s).getLsbD k = v.getLsbD ((k + s) % 32) := by
  rw [rotr32_eq_rotateRight, getLsbD_rotateRight_eq_mod v s hk]

/-- Settles O28: both rotations are the rotation of a word of their width. -/
theorem rotationsMoveEveryBit : Obligations.RotationsMoveEveryBit := by
  refine ⟨fun v s k hk => ?_, fun v s k hk => ?_⟩
  · rw [getLsbD_rotr64 v s hk, Nat.add_mod_mod]
  · rw [getLsbD_rotr32 v s hk, Nat.add_mod_mod]

/-- Settles O29: the laws hold of a rotation at any width. -/
theorem rotationLaws : Obligations.RotationLaws := by
  refine ⟨fun v s t => ?_, fun v s t => ?_⟩
  · simp only [rotr64_eq_rotateRight]
    exact ⟨rotateRight_add_width v s, rotateRight_rotateRight v s t, rotateRight_eq_self v rfl, ones_rotateRight v s⟩
  · simp only [rotr32_eq_rotateRight]
    exact ⟨rotateRight_add_width v s, rotateRight_rotateRight v s t, rotateRight_eq_self v rfl, ones_rotateRight v s⟩

/-! ### `shift_mix` -/

/-- Bit `k` of `shift_mix(v)` is `v[k] ^ v[k + 47]` (R122). -/
theorem getLsbD_shiftMix (v : Word) (k : Nat) : (shiftMix v).getLsbD k = (v.getLsbD k ^^ v.getLsbD (k + 47)) := by
  rw [shiftMix, BitVec.getLsbD_xor, BitVec.getLsbD_ushiftRight, Nat.add_comm]

/-- Bits 63:17 have no bit 47 places above them, and stay (R122). -/
theorem getLsbD_shiftMix_of_ge (v : Word) {k : Nat} (hk : 17 ≤ k) : (shiftMix v).getLsbD k = v.getLsbD k := by
  rw [getLsbD_shiftMix, BitVec.getLsbD_of_ge v (k + 47) (by omega), Bool.xor_false]

/-- The bits that `shift_mix` folds in are bits it keeps, so a second time takes them out again (R135). -/
theorem shiftMix_involutive : Function.Involutive shiftMix := by
  intro v
  apply BitVec.eq_of_getLsbD_eq
  intro k _
  rw [getLsbD_shiftMix, getLsbD_shiftMix, getLsbD_shiftMix_of_ge v (by omega), Bool.xor_assoc, Bool.xor_self, Bool.xor_false]

/-- `shift_mix` on words is the claims' `shift_mix` on naturals (R122). -/
theorem toNat_shiftMix (v : Word) : (shiftMix v).toNat = natShiftMix v.toNat := by
  rw [shiftMix, natShiftMix, BitVec.toNat_xor, BitVec.toNat_ushiftRight, Nat.shiftRight_eq_div_pow]

/-! ### `combine16` -/

/-- An odd word has an inverse modulo 2^64. -/
theorem isUnit_of_odd_toNat {mul : Word} (h : mul.toNat % 2 = 1) : IsUnit mul := by
  have hcop : Nat.Coprime mul.toNat (2 ^ 64) := (Nat.coprime_two_right.mpr (Nat.odd_iff.mpr h)).pow_right 64
  obtain ⟨m, -, hm⟩ := Nat.exists_mul_mod_eq_one_of_coprime hcop (by decide)
  refine IsUnit.of_mul_eq_one (BitVec.ofNat 64 m) (BitVec.eq_of_toNat_eq ?_)
  rw [BitVec.toNat_mul, BitVec.toNat_ofNat, Nat.mul_mod_mod, hm]
  rfl

/-- A XOR with a fixed word undoes itself. -/
theorem xor_involutive (v : Word) : Function.Involutive (v ^^^ ·) := by
  intro u
  simp only [← BitVec.xor_assoc, BitVec.xor_self, BitVec.zero_xor]

/-- `combine16` in its first argument is three products with the multiplier, with XORs and `shift_mix` between them (R123). -/
theorem combine16_eq_comp (v mul : Word) : (fun u => combine16 u v mul) =
    (· * mul) ∘ shiftMix ∘ (· * mul) ∘ (v ^^^ ·) ∘ shiftMix ∘ (· * mul) ∘ (v ^^^ ·) := by
  funext u
  simp only [combine16, Function.comp_apply, BitVec.xor_comm u v]

/-- Settles O30: every step of `combine16` is a bijection, the products because the multiplier is odd. -/
theorem mixersAreBijections : Obligations.MixersAreBijections := by
  have hmix : Function.Bijective shiftMix := shiftMix_involutive.bijective
  refine ⟨hmix, shiftMix_involutive, fun v mul hodd => ?_⟩
  have hmul : Function.Bijective (· * mul) := IsUnit.isUnit_iff_mulRight_bijective.mp (isUnit_of_odd_toNat hodd)
  have hxor : Function.Bijective (v ^^^ ·) := (xor_involutive v).bijective
  rw [combine16_eq_comp]
  exact hmul.comp (hmix.comp (hmul.comp (hxor.comp (hmix.comp (hmul.comp hxor)))))

/-- `combine16` on words is the claims' `combine16` on naturals (R123, R10). -/
theorem toNat_combine16 (u v mul : Word) : (combine16 u v mul).toNat = natCombine16 u.toNat v.toNat mul.toNat := by
  simp only [combine16, natCombine16, BitVec.toNat_mul, toNat_shiftMix, BitVec.toNat_xor]

/-! ### The commands on 64-bit words -/

/-- Settles O33: `ROTR64` writes `rotr64` by the register's amount modulo 64. -/
theorem rotr64RotatesByARegister : Obligations.Rotr64RotatesByARegister := by
  intro rd ra rb s
  refine ⟨?_, _, rfl, setReg_writesOnly s rd _, fun k hk => ?_⟩
  · simpa [opcode, Instr.fields, opBits] using commandWord_fields (i := .rotr64 rd ra rb) rfl
  · rw [reg_setReg_same, getLsbD_rotr64 _ _ hk, State.amount]

/-- Settles O34: `ROTR64I` writes `rotr64` by the immediate. -/
theorem rotr64iRotatesByAnImmediate : Obligations.Rotr64iRotatesByAnImmediate := by
  intro rd ra imm6 s himm
  refine ⟨?_, _, rfl, setReg_writesOnly s rd _, fun k hk => ?_⟩
  · have hwf : (Instr.rotr64i rd ra imm6).WellFormed := decide_eq_true himm
    simpa [opcode, Instr.fields, opBits] using commandWord_fields hwf
  · rw [reg_setReg_same, getLsbD_rotr64 _ _ hk]

/-- Settles O37: `SHMIX` writes `shift_mix` of its source. -/
theorem shmixFoldsTheTopBits : Obligations.ShmixFoldsTheTopBits := by
  intro rd ra s
  refine ⟨?_, s.setReg rd (shiftMix (s.reg ra)), rfl, setReg_writesOnly s rd _, ?_⟩
  · simpa [opcode, Instr.fields, opBits] using commandWord_fields (i := .shmix rd ra) rfl
  · rw [reg_setReg_same]
    exact ⟨rfl, fun k => getLsbD_shiftMix_of_ge _, fun k _ => getLsbD_shiftMix _ k, toNat_shiftMix _⟩

/-- Settles O38: `COMB16` writes `combine16` of its sources with the constant KMUL. -/
theorem comb16CombinesWithTheDefaultMultiplier : Obligations.Comb16CombinesWithTheDefaultMultiplier := by
  intro rd ra rb s
  refine ⟨?_, _, rfl, setReg_writesOnly s rd _, ?_⟩
  · simpa [opcode, Instr.fields, opBits] using commandWord_fields (i := .comb16 rd ra rb) rfl
  · rw [reg_setReg_same, toNat_combine16]

/-- Settles O39: `COMB16M` writes `combine16` of its three sources. -/
theorem comb16mCombinesWithARegister : Obligations.Comb16mCombinesWithARegister := by
  intro rd ra rb rc s
  refine ⟨?_, _, rfl, setReg_writesOnly s rd _, ?_⟩
  · simpa [opcode, Instr.fields, opBits] using commandWord_fields (i := .comb16m rd ra rb rc) rfl
  · rw [reg_setReg_same, toNat_combine16]

/-- Settles O40: `WPAIR32` writes `weak_pair32` of the old sources to the pair. -/
theorem wpair32UpdatesThePair : Obligations.Wpair32UpdatesThePair := by
  intro rd ra rb rc s
  refine ⟨?_, _, rfl, setPair_writesOnly s rd _, (pairHigh_ne rd).symm, ?_, ?_⟩
  · simpa [opcode, Instr.fields, opBits] using commandWord_fields (i := .wpair32 rd ra rb rc) rfl
  · rw [reg_setPair_low]
    simp only [weakPair32, State.quad, add_zero]
  · rw [← pairHigh, reg_setPair_high]
    simp only [weakPair32, State.quad, add_zero, rotr64_eq_rotateRight]

/-! ### The commands on the low half of a register -/

/-- A bit of a 32-bit source is the register's (R23). -/
theorem getLsbD_low32 (s : State) (r : Reg) {k : Nat} (hk : k < 32) : (s.low32 r).getLsbD k = (s.reg r).getLsbD k := by
  simp [State.low32, hk]

/-- A bit of a 32-bit result is the register's (R23). -/
theorem getLsbD_reg_setReg32 (s : State) (r : Reg) (v : Half) {k : Nat} (hk : k < 32) :
    ((s.setReg32 r v).reg r).getLsbD k = v.getLsbD k := by
  simp [State.setReg32, show k < 64 by omega]

/-- A 32-bit result leaves bits 63:32 of the register at 0 (R23). -/
theorem toNat_reg_setReg32_lt (s : State) (r : Reg) (v : Half) : ((s.setReg32 r v).reg r).toNat < 2 ^ 32 :=
  toNat_reg_setReg32 s r v ▸ v.isLt

/-- Bit `k` of the low half of `ra`, rotated by `n` and written to `rd`, is bit `(k + n) mod 32` of `ra` (R127, R128). -/
theorem getLsbD_reg_setReg32_rotr32 (s : State) (rd ra : Reg) (n : Nat) {k : Nat} (hk : k < 32) :
    ((s.setReg32 rd (rotr32 (s.low32 ra) n)).reg rd).getLsbD k = (s.reg ra).getLsbD ((k + n) % 32) := by
  rw [getLsbD_reg_setReg32 s rd _ hk, getLsbD_rotr32 _ n hk, getLsbD_low32 s ra (Nat.mod_lt _ (by omega))]

/-- Settles O35: `ROTR32` writes `rotr32` of the low half, by the register's amount modulo 32. -/
theorem rotr32RotatesTheLowHalfByARegister : Obligations.Rotr32RotatesTheLowHalfByARegister := by
  intro rd ra rb s
  refine ⟨?_, _, rfl, setReg_writesOnly s rd _, toNat_reg_setReg32_lt s rd _, fun k hk => ?_⟩
  · simpa [opcode, Instr.fields, opBits] using commandWord_fields (i := .rotr32 rd ra rb) rfl
  · rw [getLsbD_reg_setReg32_rotr32 s rd ra _ hk, State.amount]

/-- Settles O36: `ROTR32I` writes `rotr32` of the low half, by the immediate modulo 32. -/
theorem rotr32iRotatesTheLowHalfByAnImmediate : Obligations.Rotr32iRotatesTheLowHalfByAnImmediate := by
  intro rd ra imm6 s himm
  refine ⟨?_, _, rfl, setReg_writesOnly s rd _, toNat_reg_setReg32_lt s rd _, fun k hk => ?_⟩
  · have hwf : (Instr.rotr32i rd ra imm6).WellFormed := decide_eq_true himm
    simpa [opcode, Instr.fields, opBits] using commandWord_fields hwf
  · exact getLsbD_reg_setReg32_rotr32 s rd ra (imm6 % 32) hk

end Sys2Proof.Machine
end

section
/-! PROOFS of the family 42_hash32: the helper steps (R142 to R144), the four buckets (R145 to R150), the fetches in bounds (R152) and `HASH32` (R140).
The claims read words with no check of the bound; each lemma of a bucket says that its fetches are these words. -/

namespace Sys2Proof.Machine

open Sys2Proof.Claims Sys2Proof.Laws.EncodeOpcode

/-! ### The helper steps -/

/-- An xor-shift on words is one on naturals. -/
theorem toNat_xor_ushiftRight {w : Nat} (v : BitVec w) (k : Nat) :
    (v ^^^ (v >>> k)).toNat = v.toNat ^^^ (v.toNat / 2 ^ k) := by
  rw [BitVec.toNat_xor, BitVec.toNat_ushiftRight, Nat.shiftRight_eq_div_pow]

/-- The step that ends `mur` is the claims' `rot5` (R143). -/
theorem mur5_eq_rot5 (K : Consts) (h : Half) (r : Nat) : mur5 K h r = rot5 K h r := by
  rw [mur5, rotr32_eq_rotateRight, rot5]

/-- `pre` is the premix of the claims (R148). -/
theorem pre_eq_preMix (K : Consts) (v : Half) : pre K v = preMix K v := by
  rw [pre, rotr32_eq_rotateRight, preMix]

/-- `mur` mixes the premixed data into the accumulator (R143). -/
theorem mur_eq_rot5 (K : Consts) (a h : Half) : mur K a h = rot5 K (h ^^^ preMix K a) 19 := by
  simp only [mur, mur5_eq_rot5, rotr32_eq_rotateRight, preMix]

/-- Four bytes in a row read back, the first one from the top. -/
theorem extractLsb'_append_bytes (a b c d : Byte) :
    (a ++ b ++ c ++ d).extractLsb' 24 8 = a ∧ (a ++ b ++ c ++ d).extractLsb' 16 8 = b ∧
    (a ++ b ++ c ++ d).extractLsb' 8 8 = c ∧ (a ++ b ++ c ++ d).extractLsb' 0 8 = d := by
  simp (disch := omega) only [BitVec.extractLsb'_append_eq_of_le, BitVec.extractLsb'_append_eq_right, BitVec.extractLsb'_eq_self,
    Nat.sub_self, Nat.reduceSub, and_self]

/-- Settles O47: `fmix` is read on naturals step by step, `mur` is in the claims' terms, and `bswap32` is four bytes in a row. -/
theorem hash32HelperSteps : Obligations.Hash32HelperSteps := by
  refine ⟨fun K h => ?_, fun K a h => ?_, fun v => ?_⟩
  · simp only [fmix, toNat_xor_ushiftRight, BitVec.toNat_mul]
  · rw [mur_eq_rot5, rot5, preMix]
  · exact extractLsb'_append_bytes _ _ _ _

/-! ### Reads in bounds -/

/-- A 32-bit fetch in bounds is the word of the claims (R110). -/
theorem f32_eq_some_w32 {B : ByteRun} {i : Nat} (h : i + 4 ≤ B.len) : B.f32 i = some (w32 B i) := by
  obtain ⟨v, hv, hsum⟩ := f32_eq_some_le32 h
  rw [hv, w32, ← hsum, BitVec.ofNat_toNat, BitVec.setWidth_eq]

/-- A byte of a run, zero-extended, is the byte of the claims (R13, R145). -/
theorem setWidth_read_addr (B : ByteRun) (i : Nat) : (B.mem.read (B.addr i)).setWidth 32 = b32 B i := by
  rw [b32, byteAt_eq_read_addr, BitVec.ofNat_toNat]

section
variable (K : Consts) {B : ByteRun}

/-! ### The three shorter buckets -/

/-- The byte loop folds the bytes in order (R145). -/
theorem h32Bytes_eq_foldl {left i : Nat} (h : i + left ≤ B.len) (b c : Half) :
    h32Bytes K B left i b c = some ((List.range' i left).foldl (byteStep K B) (b, c)) := by
  induction left generalizing i b c with
  | zero => rfl
  | succ left ih =>
    rw [h32Bytes, byte_inBounds B i (by omega), Option.bind_eq_bind, Option.bind_some, setWidth_read_addr, ih (by omega)]
    rfl

/-- Bucket `n <= 4` (R145). -/
theorem h32_of_len_le_four (h : B.len ≤ 4) {b c : Half} (hbc : (List.range B.len).foldl (byteStep K B) (0, 9) = (b, c)) :
    h32 K B = some (fmix K (mur K b (mur K (n32 B) c))) := by
  rw [h32, if_pos h, h32Len0to4, h32Bytes_eq_foldl K (by omega), ← List.range_eq_range', hbc]
  rfl

/-- The third fetch of the bucket `5 <= n <= 12` (R146). -/
theorem midOffset_eq {n : Nat} (h5 : 5 ≤ n) (h12 : n ≤ 12) : (n >>> 1) &&& 4 = if n ≤ 7 then 0 else 4 := by
  interval_cases n <;> decide

/-- Bucket `5 <= n <= 12` (R146). -/
theorem h32_of_len_five_to_twelve (h5 : 5 ≤ B.len) (h12 : B.len ≤ 12) :
    h32 K B = some (fmix K (mur K (9 + w32 B (if B.len ≤ 7 then 0 else 4))
      (mur K (n32 B * 5 + w32 B (B.len - 4)) (mur K (n32 B + w32 B 0) (n32 B * 5))))) := by
  have hmid := f32_eq_some_w32 (midOffset_add_four_le h5 h12)
  rw [h32, if_neg (by omega), if_pos h12, ← midOffset_eq h5 h12]
  simp (disch := omega) only [h32Len5to12, hmid, f32_eq_some_w32]
  rfl

/-- Bucket `13 <= n <= 24` (R147). -/
theorem h32_of_len_thirteen_to_twentyFour (h13 : 13 ≤ B.len) (h24 : B.len ≤ 24) :
    h32 K B = some (fmix K (mur K (w32 B (B.len - 4)) (mur K (w32 B 0) (mur K (w32 B (B.len / 2))
      (mur K (w32 B (B.len - 8)) (mur K (w32 B 4) (mur K (w32 B (B.len / 2 - 4)) (n32 B)))))))) := by
  rw [h32, if_neg (by omega), if_neg (by omega), if_pos h24]
  simp (disch := omega) only [h32Len13to24, Nat.shiftRight_one, f32_eq_some_w32]
  rfl

/-! ### The longest bucket -/

/-- The start reads the last 20 bytes (R148). -/
theorem h32Start_eq (h : 20 ≤ B.len) : h32Start K B = some (longStart32 K B) := by
  simp (disch := omega) only [h32Start, f32_eq_some_w32, mur5_eq_rot5, pre_eq_preMix]
  rfl

/-- Pass `k` reads the 20 bytes from index `20 * k` up (R149). -/
theorem h32Pass_eq {k : Nat} (h : 20 * k + 20 ≤ B.len) (r : H32Regs) :
    h32Pass K B (20 * k) r = some (longPass32 K B r k) := by
  simp (disch := omega) only [h32Pass, f32_eq_some_w32, mur5_eq_rot5, pre_eq_preMix, rotr32_eq_rotateRight]
  rfl

/-- The loop makes its passes in order (R149). -/
theorem h32Loop_eq_foldl {left k : Nat} (h : 20 * (k + left) ≤ B.len) (r : H32Regs) :
    h32Loop K B left (20 * k) r = some ((List.range' k left).foldl (longPass32 K B) r) := by
  induction left generalizing k r with
  | zero => rfl
  | succ left ih =>
    rw [h32Loop, h32Pass_eq K (by omega), Option.bind_eq_bind, Option.bind_some, ← Nat.mul_succ, ih (by omega)]
    rfl

/-- The end mixes the three registers as the claims do (R150). -/
theorem h32End_eq (r : H32Regs) : h32End K r = longEnd32 K r := by
  simp only [h32End, longEnd32, mur5_eq_rot5, rotr32_eq_rotateRight]

/-- Bucket `n > 24` (R148 to R150). -/
theorem h32_of_twentyFour_lt_len (h : 24 < B.len) :
    h32 K B = some (longEnd32 K ((List.range ((B.len - 1) / 20)).foldl (longPass32 K B) (longStart32 K B))) := by
  have hloop : h32Loop K B ((B.len - 1) / 20) 0 (longStart32 K B) =
      some ((List.range ((B.len - 1) / 20)).foldl (longPass32 K B) (longStart32 K B)) := by
    rw [List.range_eq_range']
    exact h32Loop_eq_foldl K (k := 0) (by omega) (longStart32 K B)
  rw [h32, if_neg (by omega), if_neg (by omega), if_neg (by omega), h32Over24, h32Start_eq K (by omega),
    Option.bind_eq_bind, Option.bind_some, hloop, ← h32End_eq]
  rfl

end

/-- Settles O48: in each bucket the fetches are in bounds, and the byte loop folds the bytes in order. -/
theorem hash32ShortBuckets : Obligations.Hash32ShortBuckets := by
  intro K B
  refine ⟨fun h4 => ?_, h32_of_len_five_to_twelve K, h32_of_len_thirteen_to_twentyFour K⟩
  exact ⟨_, _, rfl, h32_of_len_le_four K h4 rfl⟩

/-- Settles O49: the last 20 bytes and the bytes of every pass lie in the run, so no fetch stops the loop. -/
theorem hash32LongBucket : Obligations.Hash32LongBucket := fun K _ => h32_of_twentyFour_lt_len K

/-- Settles O50: in each bucket the offsets of the fetches end inside the run. -/
theorem hash32FetchesStayInBounds : Obligations.Hash32FetchesStayInBounds := h32_exists

/-! ### The command -/

/-- `HASH32` completes with the engine's value in its register (R140). -/
theorem exec_hash32_of_some {s : State} {v : Half} (rd : Reg) (h : h32 consts s.window = some v) :
    exec (.hash32 rd) s = .next (s.setReg32 rd v) := by
  simp [exec, execHash32, h]

/-- Settles O41: the engine has a value for every window, and `HASH32` writes it. -/
theorem hash32WritesTheHashOfTheWindow : Obligations.Hash32WritesTheHashOfTheWindow := by
  intro rd s
  obtain ⟨v, hv⟩ := h32_exists consts s.window
  refine ⟨?_, v, _, hv, exec_hash32_of_some rd hv, toNat_reg_setReg32 s rd v, setReg_writesOnly s rd _⟩
  simpa [opcode, Instr.fields, opBits] using commandWord_fields (i := .hash32 rd) rfl

end Sys2Proof.Machine
end

section
/-! PROOFS of the family 43_hash64: the buckets of `H64` (R164 to R173), its fetches in bounds (R178), its seeded forms (R174 to R176) and the three
commands (R160 to R162). The claims read words with no check of the bound; each lemma of a bucket says that its fetches are these words. -/

namespace Sys2Proof.Machine

open Sys2Proof.Claims Sys2Proof.Laws.EncodeOpcode

/-! ### Reads and packed words -/

/-- A 64-bit fetch in bounds is the word of the claims (R111). -/
theorem f64_eq_some_w64 {B : ByteRun} {i : Nat} (h : i + 8 ≤ B.len) : B.f64 i = some (w64 B i) := by
  obtain ⟨v, hv, hsum⟩ := f64_eq_some_le64 h
  rw [hv, w64, ← hsum, BitVec.ofNat_toNat, BitVec.setWidth_eq]

/-- A byte of the claims is below 2^8. -/
theorem byteAt_lt (m : Memory) (base : Word) (i : Nat) : byteAt m base i < 2 ^ 8 := BitVec.isLt _

/-- A zero-extended byte keeps its value (R165). -/
theorem toNat_b32 (B : ByteRun) (i : Nat) : (b32 B i).toNat = byteAt B.mem B.base i := by
  rw [b32, BitVec.toNat_ofNat, Nat.mod_eq_of_lt (lt_trans (byteAt_lt _ _ _) (by omega))]

/-- A word plus another one shifted up is a sum of naturals, modulo the width. -/
theorem add_shiftLeft_eq_ofNat {w : Nat} (x y : BitVec w) (k : Nat) :
    x + y <<< k = BitVec.ofNat w (x.toNat + 2 ^ k * y.toNat) := by
  apply BitVec.eq_of_toNat_eq
  rw [BitVec.toNat_add, BitVec.toNat_shiftLeft, BitVec.toNat_ofNat, Nat.shiftLeft_eq, Nat.add_mod_mod, Nat.mul_comm]

/-- Packing at 32 bits loses nothing when the sum fits in them (R165). -/
theorem setWidth_add_shiftLeft {x y : Half} {k : Nat} (h : x.toNat + 2 ^ k * y.toNat < 2 ^ 32) :
    (x + y <<< k).setWidth 64 = BitVec.ofNat 64 (x.toNat + 2 ^ k * y.toNat) := by
  rw [add_shiftLeft_eq_ofNat, BitVec.setWidth_ofNat_of_le_of_lt (by omega) h]

/-- The two bytes that bucket `1 <= n <= 3` packs (R165). -/
theorem packedBytes_eq (B : ByteRun) (i j : Nat) :
    (b32 B i + b32 B j <<< 8).setWidth 64 = BitVec.ofNat 64 (byteAt B.mem B.base i + 2 ^ 8 * byteAt B.mem B.base j) := by
  have hi := byteAt_lt B.mem B.base i
  have hj := byteAt_lt B.mem B.base j
  rw [setWidth_add_shiftLeft (by rw [toNat_b32, toNat_b32]; omega), toNat_b32, toNat_b32]

/-- The length and the last byte that bucket `1 <= n <= 3` packs (R165). -/
theorem packedLength_eq {n : Nat} (hn : n ≤ 3) (B : ByteRun) (i : Nat) :
    (BitVec.ofNat 32 n + b32 B i <<< 2).setWidth 64 = BitVec.ofNat 64 (n + 4 * byteAt B.mem B.base i) := by
  have hi := byteAt_lt B.mem B.base i
  have hlen : (BitVec.ofNat 32 n).toNat = n := Nat.mod_eq_of_lt (by omega)
  rw [setWidth_add_shiftLeft (by rw [toNat_b32, hlen]; omega), toNat_b32, hlen]
  rfl

section
variable (K : Consts) {B : ByteRun}

/-! ### The buckets up to 16 bytes -/

/-- The empty run (R164). -/
theorem h64_of_len_eq_zero (h : B.len = 0) : h64 K B = some K.K2 := by
  rw [h64, if_pos h]

/-- Bucket `1 <= n <= 3` (R165). -/
theorem h64_of_len_one_to_three (h1 : 1 ≤ B.len) (h3 : B.len ≤ 3) :
    h64 K B = some (shiftMix
      ((BitVec.ofNat 64 (byteAt B.mem B.base 0 + 2 ^ 8 * byteAt B.mem B.base (B.len / 2)) * K.K2) ^^^
       (BitVec.ofNat 64 (B.len + 4 * byteAt B.mem B.base (B.len - 1)) * K.K0)) * K.K2) := by
  rw [h64, if_neg (by omega), if_pos h3, ← packedBytes_eq, ← packedLength_eq h3]
  simp (disch := omega) only [h64Len1to3, Nat.shiftRight_one, byte_inBounds, Option.bind_eq_bind, Option.bind_some,
    setWidth_read_addr]
  rfl

/-- Bucket `4 <= n <= 8` (R166). -/
theorem h64_of_len_four_to_eight (h4 : 4 ≤ B.len) (h8 : B.len ≤ 8) :
    h64 K B = some (combine16 (BitVec.ofNat 64 (B.len + 8 * le32 B.mem B.base 0))
      (BitVec.ofNat 64 (le32 B.mem B.base (B.len - 4))) (K.K2 + 2 * n64 B)) := by
  obtain ⟨a, ha, hasum⟩ := f32_eq_some_le32 (B := B) (i := 0) (by omega)
  obtain ⟨e, he, hesum⟩ := f32_eq_some_le32 (B := B) (i := B.len - 4) (by omega)
  have hfirst : BitVec.ofNat 64 B.len + (a.setWidth 64 <<< 3) = BitVec.ofNat 64 (B.len + 8 * a.toNat) := by
    rw [add_shiftLeft_eq_ofNat, BitVec.toNat_ofNat, Nat.mod_eq_of_lt (by omega), BitVec.toNat_setWidth_of_le (by omega)]
    rfl
  rw [h64, if_neg (by omega), if_neg (by omega), if_pos h8, h64Len4to8, ha, he, ← hasum, ← hesum, ← hfirst, BitVec.ofNat_toNat]
  rfl

/-- Bucket `9 <= n <= 16` (R167). -/
theorem h64_of_len_nine_to_sixteen (h9 : 9 ≤ B.len) (h16 : B.len ≤ 16) :
    h64 K B = some (
      let mul := K.K2 + 2 * (n64 B - 8)
      let a := w64 B 0 + K.K2
      let b := w64 B (B.len - 8)
      combine16 (b.rotateRight 37 * mul + a) ((a.rotateRight 25 + b) * mul) mul) := by
  have hmul : lengthMul K (B.len - 8) = K.K2 + 2 * (n64 B - 8) := by
    rw [lengthMul, n64, ← BitVec.ofNat_sub_ofNat_of_le B.len 8 (by omega) (by omega)]
    rfl
  rw [h64, if_neg (by omega), if_neg (by omega), if_neg (by omega), if_pos h16]
  simp (disch := omega) only [h64Len9to16, hmul, f64_eq_some_w64, rotr64_eq_rotateRight]
  rfl

/-! ### The buckets from 17 to 64 bytes -/

/-- Bucket `17 <= n <= 32` (R168). -/
theorem h64_of_len_seventeen_to_thirtyTwo (hlo : 17 ≤ B.len) (hhi : B.len ≤ 32) :
    h64 K B = some (
      let mul := K.K2 + 2 * n64 B
      let a := w64 B 0 * K.K1
      let c := w64 B (B.len - 8) * mul
      combine16 ((a + w64 B 8).rotateRight 43 + c.rotateRight 30 + w64 B (B.len - 16) * K.K2)
        (a + (w64 B 8 + K.K2).rotateRight 18 + c) mul) := by
  rw [h64, if_neg (by omega), if_neg (by omega), if_neg (by omega), if_neg (by omega), if_pos hhi]
  simp (disch := omega) only [h64Len17to32, f64_eq_some_w64, rotr64_eq_rotateRight]
  rfl

/-- Bucket `33 <= n <= 64` (R169). -/
theorem h64_of_len_thirtyThree_to_sixtyFour (hlo : 33 ≤ B.len) (hhi : B.len ≤ 64) :
    h64 K B = some (
      let mul := K.K2 + 2 * n64 B
      let a := w64 B 0 * K.K2
      let c := w64 B (B.len - 8) * mul
      let y := (a + w64 B 8).rotateRight 43 + c.rotateRight 30 + w64 B (B.len - 16) * K.K2
      let z := combine16 y (a + (w64 B 8 + K.K2).rotateRight 18 + c) mul
      let e := w64 B 16 * mul
      let g := (y + w64 B (B.len - 32)) * mul
      combine16 ((e + w64 B 24).rotateRight 43 + g.rotateRight 30 + (z + w64 B (B.len - 24)) * mul)
        (e + (w64 B 24 + a).rotateRight 18 + g) mul) := by
  rw [h64, if_neg (by omega), if_neg (by omega), if_neg (by omega), if_neg (by omega), if_neg (by omega), if_pos hhi]
  simp (disch := omega) only [h64Len33to64, f64_eq_some_w64, rotr64_eq_rotateRight]
  rfl

/-! ### The bucket over 64 bytes -/

/-- The initialization reads the first word (R170). -/
theorem h64Start_eq (h : 8 ≤ B.len) : h64Start K B = some (rollStart K B) := by
  rw [h64Start, f64_eq_some_w64 h]
  rfl

/-- A chunk step in bounds is the chunk step of the claims (R171). -/
theorem h64Rnd_eq {p : Nat} (h : p + 64 ≤ B.len) (m9 : Word) (r : H64Regs) : h64Rnd B p m9 r = some (rollStep B p m9 r) := by
  simp (disch := omega) only [h64Rnd, f64_eq_some_w64, rotr64_eq_rotateRight]
  rfl

/-- The loop makes its chunk steps in order (R172). -/
theorem h64Loop_eq_foldl {left k : Nat} (h : 64 * (k + left) ≤ B.len) (r : H64Regs) :
    h64Loop B left (64 * k) r = some ((List.range' k left).foldl (fun r k => rollStep B (64 * k) 1 r) r) := by
  induction left generalizing k r with
  | zero => rfl
  | succ left ih =>
    rw [h64Loop, h64Rnd_eq (by omega), Option.bind_eq_bind, Option.bind_some, ← Nat.mul_succ, ih (by omega)]
    rfl

/-- Bucket `n > 64` (R170 to R173). -/
theorem h64_of_sixtyFour_lt_len (h : 64 < B.len) :
    h64 K B = some (rollEnd K (rollStep B (B.len - 64) 9 (rollTail K B.len
      ((List.range ((B.len - 1) / 64)).foldl (fun r k => rollStep B (64 * k) 1 r) (rollStart K B))))) := by
  have hloop := h64Loop_eq_foldl (B := B) (left := (B.len - 1) / 64) (k := 0) (by omega) (rollStart K B)
  rw [h64, if_neg (by omega), if_neg (by omega), if_neg (by omega), if_neg (by omega), if_neg (by omega), if_neg (by omega),
    h64Over64, h64Start_eq K (by omega), Option.bind_eq_bind, Option.bind_some, hloop, Option.bind_some,
    h64Rnd_eq (by omega), List.range_eq_range']
  rfl

end

/-! ### The seeded forms -/

section
variable {K : Consts} {B : ByteRun}

/-- `H64S` is `combine16` of the seeded hash (R175). -/
theorem h64s_of_some {v : Word} (h : h64 K B = some v) (seed : Word) :
    h64s K B seed = some (combine16 (v - seed) K.KMUL K.KMUL) := by
  rw [h64s, h]
  rfl

/-- `H64S2` is `combine16` of the hash under both seeds (R174). -/
theorem h64s2_of_some {v : Word} (h : h64 K B = some v) (seed0 seed1 : Word) :
    h64s2 K B seed0 seed1 = some (combine16 (v - seed0) seed1 K.KMUL) := by
  rw [h64s2, h]
  rfl

end

/-- Settles O51: in each bucket the fetches are in bounds; the sums that the bucket of 1 to 3 bytes packs at 32 bits fit. -/
theorem hash64ShortBuckets : Obligations.Hash64ShortBuckets := by
  intro K B
  exact ⟨h64_of_len_eq_zero K, h64_of_len_one_to_three K, h64_of_len_four_to_eight K, h64_of_len_nine_to_sixteen K⟩

/-- Settles O52: in both buckets the fetches are in bounds. -/
theorem hash64MiddleBuckets : Obligations.Hash64MiddleBuckets := by
  intro K B
  exact ⟨h64_of_len_seventeen_to_thirtyTwo K, h64_of_len_thirtyThree_to_sixtyFour K⟩

/-- Settles O53: every chunk and the last 64 bytes lie in the run, so no fetch stops the loop. -/
theorem hash64LongBucket : Obligations.Hash64LongBucket := fun K _ => h64_of_sixtyFour_lt_len K

/-- Settles O54: in each bucket the offsets of the fetches end inside the run, and the seeded forms fetch nothing more. -/
theorem hash64FetchesStayInBounds : Obligations.Hash64FetchesStayInBounds := by
  intro K B seed0 seed1
  exact ⟨h64_exists K B, h64s_exists K B seed0, h64s2_exists K B seed0 seed1⟩

/-- Settles O55: the difference from the hash tells the seeds apart, and `combine16` with an odd multiplier keeps what differs apart. -/
theorem seededHash64IsInjectiveInTheSeed : Obligations.SeededHash64IsInjectiveInTheSeed := by
  intro B s1 s2 hne
  obtain ⟨v, hv⟩ := h64_exists consts B
  obtain ⟨-, -, hcomb⟩ := mixersAreBijections
  have hodd : consts.KMUL.toNat % 2 = 1 := by decide
  have hdiff : v - s1 ≠ v - s2 := sub_right_injective.ne hne
  exact ⟨_, _, h64s_of_some hv s1, h64s_of_some hv s2, (hcomb consts.KMUL consts.KMUL hodd).injective.ne hdiff⟩

/-! ### The commands -/

section
variable {s : State} {v : Word}

/-- `HASH64` completes with the engine's value in its register (R160). -/
theorem exec_hash64_of_some (rd : Reg) (h : h64 consts s.window = some v) : exec (.hash64 rd) s = .next (s.setReg rd v) := by
  rw [exec, execHash64, h, completeWith_some]

/-- `HASH64S` completes with the seeded hash in its register (R161). -/
theorem exec_hash64s_of_some (rd ra : Reg) (h : h64 consts s.window = some v) :
    exec (.hash64s rd ra) s = .next (s.setReg rd (combine16 (v - s.reg ra) consts.KMUL consts.KMUL)) := by
  rw [exec, execHash64s, h64s_of_some h, completeWith_some]

/-- `HASH64S2` completes with the twice seeded hash in its register (R162). -/
theorem exec_hash64s2_of_some (rd ra rb : Reg) (h : h64 consts s.window = some v) :
    exec (.hash64s2 rd ra rb) s = .next (s.setReg rd (combine16 (v - s.reg ra) (s.reg rb) consts.KMUL)) := by
  rw [exec, execHash64s2, h64s2_of_some h, completeWith_some]

end

/-- Settles O42: the engine has a value for every window, and `HASH64` writes it. -/
theorem hash64WritesTheHashOfTheWindow : Obligations.Hash64WritesTheHashOfTheWindow := by
  intro rd s
  obtain ⟨v, hv⟩ := h64_exists consts s.window
  refine ⟨?_, v, _, hv, exec_hash64_of_some rd hv, reg_setReg_same s rd v, setReg_writesOnly s rd v⟩
  simpa [opcode, Instr.fields, opBits] using commandWord_fields (i := .hash64 rd) rfl

/-- Settles O43: the engine has a value for every window, and `HASH64S` writes it combined under the seed. -/
theorem hash64sSeedsTheHash : Obligations.Hash64sSeedsTheHash := by
  intro rd ra s
  obtain ⟨v, hv⟩ := h64_exists consts s.window
  refine ⟨?_, v, _, hv, exec_hash64s_of_some rd ra hv, setReg_writesOnly s rd _, ?_⟩
  · simpa [opcode, Instr.fields, opBits] using commandWord_fields (i := .hash64s rd ra) rfl
  · rw [reg_setReg_same, toNat_combine16, BitVec.toNat_sub']

/-- Settles O44: the engine has a value for every window, and `HASH64S2` writes it combined under both seeds. -/
theorem hash64s2SeedsTheHashTwice : Obligations.Hash64s2SeedsTheHashTwice := by
  intro rd ra rb s
  obtain ⟨v, hv⟩ := h64_exists consts s.window
  refine ⟨?_, v, _, hv, exec_hash64s2_of_some rd ra rb hv, setReg_writesOnly s rd _, ?_⟩
  · simpa [opcode, Instr.fields, opBits] using commandWord_fields (i := .hash64s2 rd ra rb) rfl
  · rw [reg_setReg_same, toNat_combine16, BitVec.toNat_sub']

end Sys2Proof.Machine
end

section
/-! PROOFS of the family 44_hash128: the CityMurmur procedure (R195 to R201), the regimes of `H128` and `H128S` (R193, R194, R202, R203), their fetches in
bounds (R206) and the two commands (R190, R191). -/

namespace Sys2Proof.Machine

open Sys2Proof.Claims Sys2Proof.Laws.EncodeOpcode

/-! ### The CityMurmur procedure -/

section
variable (K : Consts) {B : ByteRun}

/-- A run of at most 16 bytes is folded in through `H64`; its first word is read only where it has one (R196). -/
theorem cmShortRun_of_some {h : Word} (hh : h64 K B = some h) (s0 s1 : Word) :
    cmShortRun K B s0 s1 = some
      (let a := shiftMix (s0 * K.K1) * K.K1
       let c := s1 * K.K1 + h
       { a := a, b := s1, c := c, d := shiftMix (a + if 8 ≤ B.len then w64 B 0 else c) }) := by
  by_cases h8 : 8 ≤ B.len
  · simp only [cmShortRun, hh, f64_eq_some_w64 h8, h8, if_true]
    rfl
  · simp only [cmShortRun, hh, h8, if_false]
    rfl

/-- The start reads the last 16 bytes (R197). -/
theorem cmStart_eq (h : 16 ≤ B.len) (s0 s1 : Word) : cmStart K B s0 s1 = some (groupStart K B s0 s1) := by
  simp (disch := omega) only [cmStart, f64_eq_some_w64]
  rfl

/-- Group `k` reads the 16 bytes from index `16 * k` up (R198). -/
theorem cmGroup_eq {k : Nat} (h : 16 * k + 16 ≤ B.len) (r : CMRegs) :
    cmGroup K B (16 * k) r = some (groupStep K B r k) := by
  simp (disch := omega) only [cmGroup, f64_eq_some_w64]
  rfl

/-- The loop makes its group steps in order (R198). -/
theorem cmLoop_eq_foldl {left k : Nat} (h : 16 * (k + left) ≤ B.len) (r : CMRegs) :
    cmLoop K B left (16 * k) r = some ((List.range' k left).foldl (groupStep K B) r) := by
  induction left generalizing k r with
  | zero => rfl
  | succ left ih =>
    rw [cmLoop, cmGroup_eq K (by omega), Option.bind_eq_bind, Option.bind_some, ← Nat.mul_succ, ih (by omega)]
    rfl

/-- The groups end inside the run: the last of them begins before the run's last 16 bytes (R198). -/
theorem sixteen_mul_cmGroups_le {n : Nat} (h : 16 ≤ n) : 16 * cmGroups n ≤ n := by
  unfold cmGroups
  omega

/-- A run of more than 16 bytes: the start, then the group steps (R197, R198). -/
theorem cmMix_of_sixteen_lt_len (h : 16 < B.len) (s0 s1 : Word) :
    cmMix K B s0 s1 = some ((List.range (cmGroups B.len)).foldl (groupStep K B) (groupStart K B s0 s1)) := by
  have hin : 16 * (0 + cmGroups B.len) ≤ B.len := by simpa using sixteen_mul_cmGroups_le h.le
  have hloop := cmLoop_eq_foldl K hin (groupStart K B s0 s1)
  rw [cmMix, if_neg (by omega), cmStart_eq K h.le, Option.bind_eq_bind, Option.bind_some, List.range_eq_range']
  exact hloop

/-- The swap rule looks at bit 0 of the adjusted `d`, which says whether it is odd (R200). -/
theorem cmFinish_eq_murmurEnd (adj : Word) (r : CMRegs) : cmFinish K adj r = murmurEnd K adj r := by
  have hodd : (r.d - adj).getLsbD 0 = decide ((r.d - adj).toNat % 2 = 1) := Nat.testBit_zero _
  simp only [cmFinish, murmurEnd, hodd, decide_eq_true_eq]

/-- The procedure ends with the adjustment, the swap rule and the final combine (R199 to R201). -/
theorem cityMurmur_of_some {s0 s1 : Word} {r : CMRegs} (h : cmMix K B s0 s1 = some r) (adj : Word) :
    cityMurmur K B s0 s1 adj = some (murmurEnd K adj r) := by
  rw [cityMurmur, h, ← cmFinish_eq_murmurEnd]
  rfl

/-! ### The regimes -/

/-- From 16 bytes up, the first 16 give the seed and the rest is hashed under it (R193). -/
theorem h128_of_sixteen_le_len (h : 16 ≤ B.len) :
    h128 K B = h128s K (B.sub 16 B.len) (w64 B 0) (w64 B 8 + K.K0) := by
  rw [h128, if_neg (by omega), f64_eq_some_w64 (by omega), f64_eq_some_w64 (by omega)]
  rfl

/-- From 128 bytes up, both seeds are derived through `H64` of the first and last 16 bytes (R202, R203). -/
theorem h128s_of_oneHundredTwentyEight_le_len (h : 128 ≤ B.len) {hh ht : Word} (hhead : h64 K (B.sub 0 16) = some hh)
    (htail : h64 K (B.sub (B.len - 16) B.len) = some ht) (s0 s1 : Word) :
    h128s K B s0 s1 = cityMurmur K (B.sub 0 (B.len - 16)) (combine16 (hh + K.K0) s0 K.KMUL)
      (combine16 (ht + K.K1) s1 K.KMUL) 16 := by
  rw [h128s, if_neg (by omega), h128Long, hhead, htail]
  rfl

end

/-- Settles O56: the short run goes through `H64`, and in the long one the last 16 bytes and every group are in bounds. -/
theorem cityMurmurProcedure : Obligations.CityMurmurProcedure := by
  intro K B s0 s1 adj
  refine ⟨fun h16 => ?_, fun h16 => ?_⟩
  · obtain ⟨v, hv⟩ := h64_exists K B
    have hmix : cmMix K B s0 s1 = cmShortRun K B s0 s1 := if_pos h16
    exact ⟨v, hv, cityMurmur_of_some K (hmix.trans (cmShortRun_of_some K hv s0 s1)) adj⟩
  · exact cityMurmur_of_some K (cmMix_of_sixteen_lt_len K h16 s0 s1) adj

/-- Settles O57: each length selects its regime, and the fetches and hashes that give the seeds have values. -/
theorem hash128Regimes : Obligations.Hash128Regimes := by
  intro K B s0 s1
  refine ⟨fun hlt => if_pos hlt, h128_of_sixteen_le_len K, fun hlt => if_pos hlt, fun hge => ?_⟩
  obtain ⟨hh, hhead⟩ := h64_exists K (B.sub 0 16)
  obtain ⟨ht, htail⟩ := h64_exists K (B.sub (B.len - 16) B.len)
  exact ⟨hh, ht, hhead, htail, h128s_of_oneHundredTwentyEight_le_len K hge hhead htail s0 s1⟩

/-- Settles O58: the seed of 16 bytes, the sub-runs and every group of the procedure lie in the run. -/
theorem hash128FetchesStayInBounds : Obligations.Hash128FetchesStayInBounds := by
  intro K B s0 s1
  exact ⟨h128_exists K B, h128s_exists K B s0 s1⟩

/-! ### The commands -/

section
variable {s : State} {p : Word × Word}

/-- `HASH128` completes with the engine's value in its pair (R190). -/
theorem exec_hash128_of_some (rd : Reg) (h : h128 consts s.window = some p) :
    exec (.hash128 rd) s = .next (s.setPair rd p) := by
  rw [exec, execHash128, h, completeWith_some]

/-- `HASH128S` completes with the engine's value under the seeds its registers held before (R191). -/
theorem exec_hash128s_of_some (rd ra rb : Reg) (h : h128s consts s.window (s.reg ra) (s.reg rb) = some p) :
    exec (.hash128s rd ra rb) s = .next (s.setPair rd p) := by
  rw [exec, execHash128s, h, completeWith_some]

end

/-- Settles O45: the engine has a value for every window, and `HASH128` writes it to the pair. -/
theorem hash128WritesThePair : Obligations.Hash128WritesThePair := by
  intro rd s
  obtain ⟨⟨lo, hi⟩, hp⟩ := h128_exists consts s.window
  refine ⟨?_, lo, hi, _, hp, exec_hash128_of_some rd hp, reg_setPair_low s rd _, reg_setPair_high s rd _,
    setPair_writesOnly s rd _⟩
  simpa [opcode, Instr.fields, opBits] using commandWord_fields (i := .hash128 rd) rfl

/-- Settles O46: the engine has a value for every window and seed, and `HASH128S` writes it to the pair. -/
theorem hash128sWritesThePair : Obligations.Hash128sWritesThePair := by
  intro rd ra rb s
  obtain ⟨⟨lo, hi⟩, hp⟩ := h128s_exists consts s.window (s.reg ra) (s.reg rb)
  refine ⟨?_, lo, hi, _, hp, exec_hash128s_of_some rd ra rb hp, reg_setPair_low s rd _, reg_setPair_high s rd _,
    setPair_writesOnly s rd _⟩
  simpa [opcode, Instr.fields, opBits] using commandWord_fields (i := .hash128s rd ra rb) rfl

end Sys2Proof.Machine
end

section
/-! PROOFS of the family 60_exceptions: fault entry (R220, R221, R226), the illegal values and the order of the checks (R222, R225), the frozen core and
its one exit (R227, R228), precise faults (R229). -/

namespace Sys2Proof.Machine

open Sys2Proof.Claims

/-! ### Fault entry from no fault -/

/-- FETCH_BOUNDS taken with no fault before it shows as 0x11 (R220). -/
theorem raiseFault_fetchBounds_status {s : State} (h : s.status = 0) (info : Word) :
    (raiseFault .fetchBounds info s).status = 0x11 := by
  rw [raiseFault_status, h]
  decide

/-- ILLEGAL_CMD taken with no fault before it shows as 0x21 (R220). -/
theorem raiseFault_illegalCmd_status {s : State} (h : s.status = 0) (info : Word) :
    (raiseFault .illegalCmd info s).status = 0x21 := by
  rw [raiseFault_status, h]
  decide

/-- Settles O14: `raiseFault` is fault entry for either cause, and from `STATUS` = 0 its value is computed. -/
theorem faultEntryWritesThreeFields : Obligations.FaultEntryWritesThreeFields := by
  intro info s
  exact ⟨raiseFault_takesFault .fetchBounds info s, raiseFault_takesFault .illegalCmd info s,
    fun hst => ⟨raiseFault_fetchBounds_status hst info, raiseFault_illegalCmd_status hst info⟩⟩

/-! ### A command faults or writes its destination -/

/-- A fetch command past the end of the window takes FETCH_BOUNDS with its offset (R221). -/
theorem exec_of_fetchPastEnd {i : Instr} {ra : Reg} {s : State} (h : FetchPastEnd i ra s) :
    exec i s = .next (raiseFault .fetchBounds (s.reg ra) s) := by
  obtain ⟨rd, rfl, hpast⟩ | ⟨rd, rfl, hpast⟩ := h
  · exact exec_fetch32_pastEnd rd hpast
  · exact exec_fetch64_pastEnd rd hpast

/-- Settles O22: a fetch past the end can only take its fault; any other command writes one register or one pair. -/
theorem commandsAreAllOrNothing : Obligations.CommandsAreAllOrNothing := by
  intro i s t h
  by_cases hpast : ∃ ra, FetchPastEnd i ra s
  · obtain ⟨ra, hpast⟩ := hpast
    obtain rfl : raiseFault .fetchBounds (s.reg ra) s = t := by simpa [exec_of_fetchPastEnd hpast] using h
    exact .inl ⟨ra, hpast, raiseFault_takesFault .fetchBounds (s.reg ra) s⟩
  · refine .inr ⟨fun ra hra => hpast ⟨ra, hra⟩, ?_⟩
    obtain ⟨ra, hfail, -⟩ | ⟨rd, v, hdest, rfl⟩ | ⟨rd, p, hdest, rfl⟩ := exec_next_cases h
    · exact absurd ⟨ra, (fetchFails_iff_fetchPastEnd i ra s).mp hfail⟩ hpast
    · exact hdest ▸ setReg_writesOnly s rd v
    · exact hdest ▸ setPair_writesOnly s rd p

/-- Settles O16: a fetch past the end takes its fault, and a command that does not keeps `STATUS` and FINFO. -/
theorem fetchPastTheWindowTakesFetchBounds : Obligations.FetchPastTheWindowTakesFetchBounds := by
  refine fun s => ⟨fun i ra hpast => ?_, fun i t h hchanged => ?_⟩
  · exact ⟨_, exec_of_fetchPastEnd hpast, raiseFault_takesFault .fetchBounds (s.reg ra) s⟩
  · obtain ⟨ra, hpast, -⟩ | ⟨-, -, hst, hfi, -⟩ := commandsAreAllOrNothing i s t h
    · exact ⟨ra, hpast⟩
    · exact absurd hchanged (by simp [hst, hfi])

/-! ### What raises a fault -/

/-- What a value presented as a command does to `STATUS` and FINFO when there is no fault: nothing, or one of the two faults (R220). -/
theorem runCommand_of_noFault {v : Word} {s t : State} (hst : s.status = 0) (hfi : s.finfo = 0)
    (h : runCommand v s = .next t) :
    (t.status = 0 ∧ t.finfo = 0) ∨
    (t.status = 0x11 ∧ ∃ i ra, decode v = .ok i ∧ FetchPastEnd i ra s ∧ t.finfo = s.reg ra) ∨
    (t.status = 0x21 ∧ (∃ e, decode v = .error e) ∧ t.finfo = v) := by
  obtain ⟨i, hi, hrun⟩ | ⟨e, he, hrun⟩ := runCommand_cases v s
  · obtain ⟨ra, hfail, rfl⟩ | ⟨_, _, -, rfl⟩ | ⟨_, _, -, rfl⟩ := exec_next_cases (hrun ▸ h)
    · exact .inr (.inl ⟨raiseFault_fetchBounds_status hst _, i, ra, hi, (fetchFails_iff_fetchPastEnd i ra s).mp hfail, rfl⟩)
    · exact .inl ⟨hst, hfi⟩
    · exact .inl ⟨hst, hfi⟩
  · obtain rfl : raiseFault .illegalCmd v s = t := by simpa [hrun] using h
    exact .inr (.inr ⟨raiseFault_illegalCmd_status hst v, ⟨e, he⟩, rfl⟩)

/-- A transaction other than a write to `CMD` raises no fault (R220). -/
theorem perform_keeps_noFault {tr : Transaction} {s t : State} (htr : ∀ v, tr ≠ .write 0 v) (hst : s.status = 0)
    (hfi : s.finfo = 0) (h : perform tr s = .next t) : t.status = 0 ∧ t.finfo = 0 := by
  cases tr with
  | reset =>
    obtain rfl : resetCore s = t := by simpa [perform] using h
    exact ⟨rfl, rfl⟩
  | read k =>
    obtain rfl : { s with reads := s.reads ++ [hostRead k s] } = t := by simpa [perform] using h
    exact ⟨hst, hfi⟩
  | write k v =>
    obtain rfl | ⟨-, -, rfl⟩ | ⟨-, -, rfl⟩ | ⟨-, -, rfl⟩ | ⟨-, hk, -⟩ := hostWrite_next_cases h
    case inr.inr.inr.inr =>
      obtain rfl : k = 0 := Fin.ext hk
      exact absurd rfl (htr v)
    all_goals exact ⟨hst, hfi⟩
  | mem addr bytes =>
    obtain rfl : { s with mem := memPlace s.mem addr bytes } = t := by simpa [perform] using h
    exact ⟨hst, hfi⟩

/-- `STATUS` = 0 shows no fault (R30). -/
theorem fault_of_status_eq_zero {s : State} (h : s.status = 0) : s.fault = false := by
  simp [State.fault, faultOf, h]

/-- Settles O15: an idle step and every transaction but a write to `CMD` raise nothing, and that write runs a command. -/
theorem onlyTwoFaultsOnlyFromCommandWrites : Obligations.OnlyTwoFaultsOnlyFromCommandWrites := by
  intro s t h hst hfi
  obtain ⟨-, rfl⟩ | ⟨tr, rest, hp, hperf⟩ := step_next_cases h
  · exact .inl ⟨hst, hfi⟩
  by_cases hcmd : ∃ v, tr = .write 0 v
  · obtain ⟨v, rfl⟩ := hcmd
    rw [step_commandWrite hp (fault_of_status_eq_zero hst)] at h
    exact (runCommand_of_noFault (s := { s with pending := rest }) hst hfi h).imp_right fun hraised => ⟨v, rest, hp, hraised⟩
  · exact .inl (perform_keeps_noFault (s := { s with pending := rest }) (fun v e => hcmd ⟨v, e⟩) hst hfi hperf)

/-! ### The frozen core -/

/-- CORE held the same twice over is held the same. -/
theorem SameCore.trans {s t u : State} (h : SameCore s t) (h' : SameCore t u) : SameCore s u := by
  obtain ⟨hx, hst, hbase, hlen, hfi⟩ := h
  obtain ⟨hx', hst', hbase', hlen', hfi'⟩ := h'
  exact ⟨hx'.trans hx, hst'.trans hst, hbase'.trans hbase, hlen'.trans hlen, hfi'.trans hfi⟩

/-- FAULT is a part of CORE. -/
theorem SameCore.fault_eq {s t : State} (h : SameCore s t) : t.fault = s.fault := by
  obtain ⟨-, hst, -⟩ := h
  rw [State.fault, hst, State.fault]

/-- While FAULT = 1 every transaction but a reset goes on and leaves CORE as it is (R227). -/
theorem perform_of_fault {tr : Transaction} {s : State} (hf : s.fault = true) (htr : tr ≠ .reset) :
    ∃ t, perform tr s = .next t ∧ SameCore s t ∧ t.pending = s.pending := by
  cases tr with
  | reset => exact absurd rfl htr
  | read k => exact ⟨_, rfl, ⟨rfl, rfl, rfl, rfl, rfl⟩, rfl⟩
  | write k v => exact ⟨s, hostWrite_of_fault hf k v, ⟨rfl, rfl, rfl, rfl, rfl⟩, rfl⟩
  | mem addr bytes => exact ⟨_, rfl, ⟨rfl, rfl, rfl, rfl, rfl⟩, rfl⟩

/-- While FAULT = 1 every step but a reset goes on, leaves CORE as it is and takes one transaction off the list (R227). -/
theorem step_of_fault {s : State} (hf : s.fault = true) (hreset : ∀ rest, s.pending ≠ .reset :: rest) :
    ∃ t, step s = .next t ∧ SameCore s t ∧ t.pending = s.pending.tail := by
  cases hp : s.pending with
  | nil => exact ⟨s, step_idle hp, ⟨rfl, rfl, rfl, rfl, rfl⟩, hp⟩
  | cons tr rest =>
    rw [step_pending hp]
    exact perform_of_fault (s := { s with pending := rest }) hf fun e => hreset rest (e ▸ hp)

/-- Settles O19: a write to any number does nothing, a read only adds to what the host has read, and other steps freeze CORE too. -/
theorem faultedCoreIgnoresWrites : Obligations.FaultedCoreIgnoresWrites := by
  refine fun s rest hf => ⟨fun k v hp => ?_, fun k hp => ?_, fun t hreset h => ?_⟩
  · rw [step_pending hp]
    exact hostWrite_of_fault (s := { s with pending := rest }) hf k v
  · exact ⟨_, step_pending hp, ⟨rfl, rfl, rfl, rfl, rfl⟩, rfl, rfl, rfl⟩
  · obtain ⟨t', h', hcore, -⟩ := step_of_fault hf hreset
    obtain rfl : t' = t := by simpa [h'] using h
    exact hcore

/-- A run of one step more is a run from the state after the step. -/
theorem run_succ {s t : State} (h : step s = .next t) (k : Nat) :
    Host.Core.run Sys2Proof.core (k + 1) s = Host.Core.run Sys2Proof.core k t := by
  simp only [Host.Core.run, show Sys2Proof.core.step s = .next t from h]

/-- Settles O20, by induction on the number of steps: a step leaves FAULT at 1 and no reset among the transactions still to come. -/
theorem faultFreezesEveryRunWithoutReset : Obligations.FaultFreezesEveryRunWithoutReset := by
  intro k
  induction k with
  | zero => exact fun s _ _ => ⟨s, rfl, rfl, rfl, rfl, rfl, rfl⟩
  | succ k ih =>
    intro s hf hno
    obtain ⟨t, hstep, hcore, hp⟩ := step_of_fault hf fun rest e => hno .reset (by simp [e]) rfl
    have hno' : ∀ tr ∈ t.pending, tr ≠ .reset := fun tr htr => hno tr (List.mem_of_mem_tail (hp ▸ htr))
    obtain ⟨u, hrun, hcore'⟩ := ih t (hcore.fault_eq.trans hf) hno'
    exact ⟨u, (run_succ hstep k).trans hrun, hcore.trans hcore'⟩

/-- Settles O21: a step that is no reset keeps FAULT at 1, and reset leaves 0 everywhere. -/
theorem onlyResetClearsAFault : Obligations.OnlyResetClearsAFault := by
  intro s t hf h hcleared
  by_cases hreset : ∃ rest, s.pending = .reset :: rest
  · obtain ⟨rest, hp⟩ := hreset
    obtain rfl : resetCore { s with pending := rest } = t := by simpa [step_pending hp, perform] using h
    exact ⟨rest, hp, resetCore_reg _, rfl, rfl, rfl, rfl⟩
  · obtain ⟨t', h', hcore, -⟩ := step_of_fault hf fun rest hp => hreset ⟨rest, hp⟩
    obtain rfl : t' = t := by simpa [h'] using h
    simp [hcore.fault_eq, hf] at hcleared

end Sys2Proof.Machine

namespace Sys2Proof

open Sys2Proof.Claims

/-! ### The three checks of the decoder -/

/-- A value with a 1 in bits 63:32 is 2^32 or more (R94). -/
theorem upperBits_ne_zero_iff (v : Word) : v.extractLsb' 32 32 ≠ 0 ↔ 2 ^ 32 ≤ v.toNat := by
  have hupper : (v.extractLsb' 32 32).toNat = v.toNat / 2 ^ 32 := by
    rw [BitVec.extractLsb'_toNat, Nat.shiftRight_eq_div_pow]
    omega
  bv_omega

/-- The first check (R94). -/
theorem decode_of_le {v : Word} (h : 2 ^ 32 ≤ v.toNat) : decode v = .error .upperBits :=
  if_pos ((upperBits_ne_zero_iff v).mpr h)

/-- Past the first check the low half is decoded (R93). -/
theorem decode_of_lt {v : Word} (h : v.toNat < 2 ^ 32) : decode v = decodeWord (v.setWidth 32) :=
  if_neg (mt (upperBits_ne_zero_iff v).mp (Nat.not_le.mpr h))

/-- The opcode of the low half is the opcode field of the claims (R81). -/
theorem toNat_opcodeOf_setWidth (v : Word) : (opcodeOf (v.setWidth 32)).toNat = opField v := by
  rw [opcodeOf, opField, BitVec.extractLsb'_toNat, BitVec.toNat_setWidth, Nat.shiftRight_eq_div_pow]
  omega

/-- The opcodes without a row are the reserved ones (R85). -/
theorem rowOf_eq_none_iff (op : BitVec 8) : rowOf op = none ↔ ReservedOp op.toNat := by
  simp only [rowOf, opcodeMap, rowsPrimitive, rowsHash, List.cons_append, List.nil_append, List.find?_eq_none, List.forall_mem_cons,
    List.not_mem_nil, false_imp_iff, implies_true, and_true, beq_iff_eq, ReservedOp]
  bv_omega

/-- The bits below the opcode that a row fixes: they must be 0 (R82, R84). -/
def Row.zeroBits (r : Row) : Half := r.mask &&& 0x00FFFFFF

/-- A row's mask is the opcode and the row's must-be-zero bits (R82). -/
theorem mask_eq : ∀ r ∈ opcodeMap, r.mask = (BitVec.allOnes 8).setWidth 32 <<< 24 ||| r.zeroBits := by decide

/-- A row's match value has no must-be-zero bit (R82). -/
theorem value_and_zeroBits : ∀ r ∈ opcodeMap, r.value &&& r.zeroBits = 0 := by decide

/-- A row admits a word of its opcode exactly when the must-be-zero bits are 0 (R84). -/
theorem admits_iff_and_zeroBits {r : Row} (hr : r ∈ opcodeMap) {c : Half} (hop : opcodeOf c = r.op) :
    r.admits c = true ↔ c &&& r.zeroBits = 0 := by
  have hmask : c &&& r.mask = r.value ||| (c &&& r.zeroBits) := by
    rw [mask_eq r hr, BitVec.and_or_distrib_left, ← setWidth_extractLsb'_shiftLeft, ← opcodeOf, hop, Row.value]
  rw [Row.admits, beq_iff_eq, hmask]
  constructor
  · intro h
    have hzero := congrArg (· &&& r.zeroBits) h
    simpa [BitVec.and_or_distrib_right, BitVec.and_assoc, value_and_zeroBits r hr] using hzero
  · intro h
    simp [h]

/-- The row that an opcode has is a row of the map with that opcode. -/
theorem rowOf_eq_some_iff (op : BitVec 8) (r : Row) : rowOf op = some r ↔ r ∈ opcodeMap ∧ op = r.op := by
  constructor
  · intro h
    have hop : (r.op == op) = true := List.find?_some (p := fun r : Row => r.op == op) h
    exact ⟨List.mem_of_find?_eq_some h, (beq_iff_eq.mp hop).symm⟩
  · rintro ⟨hr, rfl⟩
    exact rowOf_op hr

/-- Why a word is no command: its opcode has no row, or it has one and a must-be-zero bit of it is 1 (R84, R85, R93). -/
theorem decodeWord_eq_error_iff (c : Half) (e : Illegal) : decodeWord c = .error e ↔
    (rowOf (opcodeOf c) = none ∧ e = .reservedOpcode) ∨
    ((∃ r ∈ opcodeMap, opcodeOf c = r.op ∧ c &&& r.zeroBits ≠ 0) ∧ e = .mustBeZero) := by
  have hrow : (∃ r ∈ opcodeMap, opcodeOf c = r.op ∧ c &&& r.zeroBits ≠ 0) ↔
      ∃ r, rowOf (opcodeOf c) = some r ∧ r.admits c = false := by
    simp only [rowOf_eq_some_iff, and_assoc]
    refine exists_congr fun r => and_congr_right fun hr => and_congr_right fun hop => ?_
    rw [ne_eq, ← admits_iff_and_zeroBits hr hop, Bool.not_eq_true]
  rw [hrow, decodeWord]
  cases rowOf (opcodeOf c) with
  | none => simp [@eq_comm _ _ e]
  | some r => cases hadm : r.admits c <;> simp [hadm, @eq_comm _ _ e]

/-! ### The checks in the terms of the claims -/

/-- The claims list the must-be-zero bits format by format, the opcode map row by row (R82, R83). -/
theorem mustBeZero_perm : (mustBeZero.flatMap fun row => row.1.map fun op => (op, row.2)).Perm
    (opcodeMap.map fun r => (r.op.toNat, r.zeroBits.setWidth 64)) := by decide

/-- A must-be-zero bit of the low half is one of the value. -/
theorem and_setWidth_eq_zero_iff (v : Word) (z : Half) : v &&& z.setWidth 64 = 0 ↔ v.setWidth 32 &&& z = 0 := by
  have hwide : v &&& z.setWidth 64 = (v.setWidth 32 &&& z).setWidth 64 := by
    apply BitVec.eq_of_getLsbD_eq
    intro k hk
    by_cases hk32 : k < 32
    · simp [hk, hk32]
    · simp [BitVec.getLsbD_of_ge z k (by omega)]
  rw [hwide, ← BitVec.toNat_inj, BitVec.toNat_setWidth_of_le (by omega), ← BitVec.toNat_inj]
  rfl

/-- The claims' third condition is the decoder's (R84). -/
theorem mustBeZeroBroken_iff (v : Word) : MustBeZeroBroken v ↔
    ∃ r ∈ opcodeMap, opcodeOf (v.setWidth 32) = r.op ∧ v.setWidth 32 &&& r.zeroBits ≠ 0 := by
  have hpairs : MustBeZeroBroken v ↔ ∃ p ∈ mustBeZero.flatMap fun row => row.1.map fun op => (op, row.2),
      opField v = p.1 ∧ v &&& p.2 ≠ 0 := by
    constructor
    · rintro ⟨row, hrow, hop, hbit⟩
      exact ⟨(opField v, row.2), List.mem_flatMap.mpr ⟨row, hrow, List.mem_map_of_mem hop⟩, rfl, hbit⟩
    · rintro ⟨p, hp, hop, hbit⟩
      obtain ⟨row, hrow, hp⟩ := List.mem_flatMap.mp hp
      obtain ⟨op, hmem, rfl⟩ := List.mem_map.mp hp
      exact ⟨row, hrow, hop ▸ hmem, hbit⟩
  simp only [hpairs, mustBeZero_perm.mem_iff, List.mem_map, exists_exists_and_eq_and, ← toNat_opcodeOf_setWidth, BitVec.toNat_inj,
    ne_eq, and_setWidth_eq_zero_iff]

/-- A must-be-zero bit is one of a command's format, and a reserved opcode has none. -/
theorem not_reservedOp_of_mustBeZeroBroken {v : Word} (h : MustBeZeroBroken v) : ¬ ReservedOp (opField v) := by
  obtain ⟨r, hr, hop, -⟩ := (mustBeZeroBroken_iff v).mp h
  rw [← toNat_opcodeOf_setWidth, ← rowOf_eq_none_iff, hop, rowOf_op hr]
  exact Option.some_ne_none r

/-- Why a value is no command, in the order of the checks (R225). -/
theorem decode_eq_error_iff (v : Word) (e : Illegal) : decode v = .error e ↔
    (2 ^ 32 ≤ v.toNat ∧ e = .upperBits) ∨ (v.toNat < 2 ^ 32 ∧ ReservedOp (opField v) ∧ e = .reservedOpcode) ∨
    (v.toNat < 2 ^ 32 ∧ MustBeZeroBroken v ∧ e = .mustBeZero) := by
  by_cases hlt : v.toNat < 2 ^ 32
  · rw [decode_of_lt hlt, decodeWord_eq_error_iff, rowOf_eq_none_iff, toNat_opcodeOf_setWidth, ← mustBeZeroBroken_iff]
    simp only [hlt, not_le.mpr hlt, true_and, false_and, false_or]
  · simp only [decode_of_le (not_lt.mp hlt), hlt, not_lt.mp hlt, true_and, false_and, or_false, Except.error.injEq, eq_comm]

theorem decode_eq_upperBits_iff (v : Word) : decode v = .error .upperBits ↔ 2 ^ 32 ≤ v.toNat := by
  simp [decode_eq_error_iff]

theorem decode_eq_reservedOpcode_iff (v : Word) :
    decode v = .error .reservedOpcode ↔ v.toNat < 2 ^ 32 ∧ ReservedOp (opField v) := by
  simp [decode_eq_error_iff]

theorem decode_eq_mustBeZero_iff (v : Word) : decode v = .error .mustBeZero ↔ v.toNat < 2 ^ 32 ∧ MustBeZeroBroken v := by
  simp [decode_eq_error_iff]

/-- The three conditions of R222 are those under which a value is no command. -/
theorem exists_decode_error_iff (v : Word) :
    (∃ e, decode v = .error e) ↔ 2 ^ 32 ≤ v.toNat ∨ ReservedOp (opField v) ∨ MustBeZeroBroken v := by
  simp only [decode_eq_error_iff, exists_or, exists_and_left, exists_eq, and_true]
  by_cases hlt : v.toNat < 2 ^ 32
  · simp only [hlt, true_and]
  · simp only [not_lt.mp hlt, true_or]

/-- The reserved opcodes, range by range (R85). -/
def reservedOps : List Nat :=
  [0x00] ++ List.range' 0x03 13 ++ List.range' 0x18 8 ++ List.range' 0x21 15 ++ List.range' 0x33 13 ++ List.range' 0x42 190

theorem mem_reservedOps_iff (op : Nat) : op ∈ reservedOps ↔ op < 256 ∧ ReservedOp op := by
  simp only [reservedOps, ReservedOp, List.mem_append, List.mem_singleton, List.mem_range'_1]
  omega

/-- Each range begins past the end of the one before it. -/
theorem reservedOps_nodup : reservedOps.Nodup := by
  have hrange : ∀ a n, (List.range' a n).Nodup := fun _ _ => List.nodup_range'
  simp only [reservedOps, List.nodup_append, hrange, List.nodup_singleton, true_and, List.mem_append, List.mem_singleton,
    List.mem_range'_1]
  and_intros <;> intro a ha b hb <;> omega

end Sys2Proof

namespace Sys2Proof.Machine

open Sys2Proof.Claims

/-- A value that is no command, written to `CMD` with FAULT = 0, takes ILLEGAL_CMD (R222). -/
theorem step_illegal_takesFault {s : State} {rest : List Transaction} {v : Word} {e : Illegal} (hf : s.fault = false)
    (hp : s.pending = .write 0 v :: rest) (he : decode v = .error e) :
    ∃ t, step s = .next t ∧ TakesFault 2 v { s with pending := rest } t := by
  obtain ⟨hcmd, -, -⟩ := commandWriteRunsDecodedCommand
  obtain ⟨-, hillegal, -⟩ := hcmd s rest v hp
  exact hillegal hf e he

/-- Settles O17: the three conditions are those under which the decoder rejects, and the opcodes without a row are counted. -/
theorem illegalValuesTakeIllegalCmd : Obligations.IllegalValuesTakeIllegalCmd := by
  refine ⟨fun s v rest hf hp hill => ?_, fun v hleg => ?_, reservedOps, rfl, reservedOps_nodup, mem_reservedOps_iff⟩
  · obtain ⟨e, he⟩ := (exists_decode_error_iff v).mpr hill
    exact step_illegal_takesFault hf hp he
  · cases h : decode v with
    | ok i => exact ⟨i, rfl⟩
    | error e => exact absurd ((exists_decode_error_iff v).mp ⟨e, h⟩) hleg

/-- The fetch commands have their must-be-zero bits in 15:0 (R82, R112, R113). -/
theorem mustBeZeroBroken_of_fetch {v : Word} (hop : opField v = 0x01 ∨ opField v = 0x02) (hbits : v &&& 0xFFFF ≠ 0) :
    MustBeZeroBroken v :=
  ⟨([0x01, 0x02, 0x14, 0x31], 0x0000FFFF), by simp [mustBeZero], by obtain h | h := hop <;> simp [h], hbits⟩

/-- Settles O18: each reject of the decoder has its condition, and a fetch that the decoder rejects never reaches its bound. -/
theorem decodeChecksComeBeforeTheBound : Obligations.DecodeChecksComeBeforeTheBound := by
  refine ⟨decode_eq_upperBits_iff, decode_eq_reservedOpcode_iff, fun v => ?_, fun s v rest ra hf hp hlt hop hbits _ _ => ?_⟩
  · rw [decode_eq_mustBeZero_iff]
    exact and_congr_right fun _ => ⟨fun h => ⟨not_reservedOp_of_mustBeZeroBroken h, h⟩, And.right⟩
  · have hdec : decode v = .error .mustBeZero :=
      (decode_eq_mustBeZero_iff v).mpr ⟨hlt, mustBeZeroBroken_of_fetch hop hbits⟩
    obtain ⟨t, hstep, -, hcause, hfi, -⟩ := step_illegal_takesFault hf hp hdec
    exact ⟨t, hstep, hcause, hfi⟩

end Sys2Proof.Machine
end

section
/-! PROOFS of the family 70_reset_and_hazards: what a host write to each number does with FAULT = 0 (R254, R60), and that CORE is total (R254). -/

namespace Sys2Proof.Machine

/-! ### A host write with no fault -/

section
variable {s : State} (hf : s.fault = false) {k : PortNum}
include hf

/-- Number 2 is `BUF_BASE`, replaced whole (R60). -/
theorem hostWrite_bufBase (hk : k.val = 2) (v : Word) : hostWrite k v s = .next { s with bufBase := v } := by
  simp [hostWrite, hf, hk]

/-- Number 3 is `BUF_LEN`, replaced whole (R60). -/
theorem hostWrite_bufLen (hk : k.val = 3) (v : Word) : hostWrite k v s = .next { s with bufLen := v } := by
  simp [hostWrite, hf, hk]

/-- Number `16 + r` is operand register `r`, replaced whole (R60). -/
theorem hostWrite_operand {r : Reg} (hk : k.val = 16 + r.val) (v : Word) :
    hostWrite k v s = .next (s.setReg r v) := by
  have hr : portReg k = r := Fin.ext (by simp [portReg, hk])
  simp (disch := omega) only [hostWrite, hf, Bool.false_eq_true, if_false, if_neg, if_pos, hr]

/-- A write to a read-only or an unmapped number is ignored (R30, R33, R34). -/
theorem hostWrite_ignored (hk : k.val = 1 ∨ k.val = 4 ∨ (5 ≤ k.val ∧ k.val ≤ 15)) (v : Word) :
    hostWrite k v s = .next s := by
  simp (disch := omega) only [hostWrite, hf, Bool.false_eq_true, if_false, if_neg]

end

/-- Settles O8: the step is `hostWrite`, which acts by the number alone. -/
theorem hostWriteReplacesTheRegister : Obligations.HostWriteReplacesTheRegister := by
  intro s k v rest hf hp
  have hf' : { s with pending := rest }.fault = false := hf
  have hstep : step s = hostWrite k v { s with pending := rest } := step_pending hp
  refine ⟨fun hk => ?_, fun hk => ?_, fun r hk => ?_, fun hk => ?_⟩
  · exact hstep.trans (hostWrite_bufBase hf' hk v)
  · exact hstep.trans (hostWrite_bufLen hf' hk v)
  · exact ⟨_, hstep.trans (hostWrite_operand hf' hk v), reg_setReg_same _ r v, setReg_writesOnly _ r v⟩
  · exact hstep.trans (hostWrite_ignored hf' hk v)

/-! ### CORE is total -/

/-- Every command completes in every state (R254): the engines have values for every run, so none stops in the assertion of R115. That every
command completes is a part of `resultsDependOnWindowBytesOnly`, taken here at the window where it stands. -/
theorem exec_completes (i : Instr) (s : State) : Completes (exec i s) := by
  obtain ⟨t, ht, -⟩ := resultsDependOnWindowBytesOnly i s s.mem s.bufBase fun _ _ => rfl
  exact ⟨t, ht⟩

/-- Every value presented as a command completes: it is a command, or takes ILLEGAL_CMD. -/
theorem runCommand_completes (v : Word) (s : State) : Completes (runCommand v s) := by
  obtain ⟨i, -, hrun⟩ | ⟨e, -, hrun⟩ := runCommand_cases v s
  · exact hrun ▸ exec_completes i s
  · exact ⟨_, hrun⟩

/-- Every host write completes: all but the write to `CMD` only replace a register or do nothing. -/
theorem hostWrite_completes (k : PortNum) (v : Word) (s : State) : Completes (hostWrite k v s) := by
  unfold hostWrite
  split_ifs with hfault hcmd
  · exact ⟨s, rfl⟩
  · exact runCommand_completes v s
  all_goals exact ⟨_, rfl⟩

/-- Every transaction completes. -/
theorem perform_completes (tr : Transaction) (s : State) : Completes (perform tr s) := by
  cases tr with
  | reset => exact ⟨_, rfl⟩
  | read k => exact ⟨_, rfl⟩
  | write k v => exact hostWrite_completes k v s
  | mem addr bytes => exact ⟨_, rfl⟩

/-- Every step completes: an idle step stays where it is, any other performs its transaction. -/
theorem step_completes (s : State) : Completes (step s) := by
  cases hp : s.pending with
  | nil => exact ⟨s, step_idle hp⟩
  | cons tr rest => exact step_pending hp ▸ perform_completes tr { s with pending := rest }

/-- Settles O10: every transaction and every command completes, as no engine fetches past the end of its run. -/
theorem everyStepAndCommandCompletes : Obligations.EveryStepAndCommandCompletes :=
  ⟨step_completes, exec_completes⟩

end Sys2Proof.Machine
end
